-- ==== Sys2Proof/Word.lean ====
section
/-! DEFINITION. The bit-vector types of the ZWC block (spec/00_scope.md R8, spec/20_memory.md R50). -/

namespace Sys2Proof

/-- A 32-bit host data word, register or symbol word (R8). -/
abbrev Word := BitVec 32

/-- A payload byte (R8). -/
abbrev Byte := BitVec 8

/-- A 2-bit group of a byte (R8). -/
abbrev Crumb := BitVec 2

/-- A 4-bit half of a byte (R8). -/
abbrev Nibble := BitVec 4

/-- A byte offset from ZWC_BASE in the block's 8 MiB span, `0x000000` to `0x7FFFFF` (R50). -/
abbrev Offset := BitVec 23

end Sys2Proof
end

