-- ==== Sys2Proof/Machine/Codec.lean ====
section
/-! DEFINITION. The alphabet and the two datapaths as pure functions (spec/10_state.md R22, spec/40_encoder.md R81 to R86,
spec/41_decoder.md R101 to R108). -/

namespace Sys2Proof.Machine

/-- R22: ALPHABET, indexed by crumb value. The literals are unaudited (91 N3); this is their one place. -/
def alphabet : Vector Word 4 := #v[0x0000200B, 0x0000200C, 0x0000200D, 0x00002060]

/-! ## Encoder stages -/

/-- R81: CRUMB(b, k) = (b >> (6 - 2*k)) & 0x3, the byte-to-symbol shifter; k = 0 takes the most significant bits. -/
def crumb (b : Byte) (k : Fin 4) : Crumb := ((b >>> (6 - 2 * k.val)) &&& 0x3).setWidth 2

/-- R82: NIBBLES(b) = (b[7:4], b[3:0]). -/
def nibbles (b : Byte) : Nibble × Nibble := (b.extractLsb' 4 4, b.extractLsb' 0 4)

/-- R83: N2C(n) = (n[3:2], n[1:0]), the nibble-to-crumb LUT. -/
def nibbleToCrumbs (n : Nibble) : Crumb × Crumb := (n.extractLsb' 2 2, n.extractLsb' 0 2)

/-- R85: ENC_SYM(c) = ALPHABET[c], the crumb-to-symbol LUT. -/
def encSym (c : Crumb) : Word := alphabet.get c.toFin

/-- R58, R81, R85: the four symbols of one byte, k = 0 first. -/
def encodeByte (b : Byte) : List Word :=
  [encSym (crumb b 0), encSym (crumb b 1), encSym (crumb b 2), encSym (crumb b 3)]

/-- R86: ENCODE_FN. -/
def encodeFn (p : List Byte) : List Word := p.flatMap encodeByte

/-! ## Decoder stages -/

/-- R101: DEC_LUT, the symbol-to-crumb LUT validator over all 32 bits; `none` is INVALID. -/
def decLut (w : Word) : Option Crumb :=
  if w = alphabet.get 0 then some 0
  else if w = alphabet.get 1 then some 1
  else if w = alphabet.get 2 then some 2
  else if w = alphabet.get 3 then some 3
  else none

/-- R105: AGG(hi, lo) = (hi << 2) | lo, the crumb-to-nibble aggregator. -/
def agg (hi lo : Crumb) : Nibble := (hi.setWidth 4 <<< 2) ||| lo.setWidth 4

/-- R106: ALIGN(hi, lo) = (hi << 4) | lo, the nibble-to-byte aligner. -/
def align (hi lo : Nibble) : Byte := (hi.setWidth 8 <<< 4) ||| lo.setWidth 8

/-- R105: nib[m] = AGG(c[2m], c[2m+1]). The crumb count is even by construction of stage 1. -/
def aggregate (cs : List Crumb) : List Nibble :=
  match cs with
  | hi :: lo :: rest => agg hi lo :: aggregate rest
  | _ => []

/-- R106: byte[i] = ALIGN(nib[2i], nib[2i+1]). -/
def alignAll (ns : List Nibble) : List Byte :=
  match ns with
  | hi :: lo :: rest => align hi lo :: alignAll rest
  | _ => []

/-- R105, R106: the assemble phase, crumbs to bytes. -/
def assembleBytes (cs : List Crumb) : List Byte := alignAll (aggregate cs)

/-- R107: what DECODE_FN answers. -/
inductive DecodeResult where
  | ok (b : List Byte)
  | errLength
  | errSymbol (j : Nat) (w : Word)
  deriving DecidableEq, Repr

/-- R104: the symbol scan over a sequence whose first element has index `j`: the crumbs, or the first invalid word and its
index. -/
def scanWords (j : Nat) (ws : List Word) : Except (Nat × Word) (List Crumb) :=
  match ws with
  | [] => .ok []
  | w :: rest =>
    match decLut w with
    | none => .error (j, w)
    | some c =>
      match scanWords (j + 1) rest with
      | .ok cs => .ok (c :: cs)
      | .error e => .error e

/-- R107: DECODE_FN. -/
def decodeFn (ws : List Word) : DecodeResult :=
  if ws.length % 4 ≠ 0 then .errLength
  else
    match scanWords 0 ws with
    | .error (j, w) => .errSymbol j w
    | .ok cs => .ok (assembleBytes cs)

end Sys2Proof.Machine
end

