-- ==== Sys2Proof/Config.lean ====
section
/-! DEFINITION. What one build fixes (spec/00_scope.md R7), the turns of the agents (R13), and the free values. -/

namespace Sys2Proof

/-- R7, 92 D24: how host software cuts text into symbol words. The parameter is outside the block (R4 (b)), so no
operation of the machine reads it (DESIGN CHOICE, log entry 8). -/
inductive HostSymbolUnit where
  | codepoint
  | utf16unit
  deriving DecidableEq, Repr, Inhabited

/-- R7: the parameters of one build. `topByte` is the highest index of BYTE_MEM, so MAX_BYTES = topByte + 1 takes exactly
the legal values 1 to 2^18; `baseIndex` counts 8 MiB steps, so ZWC_BASE is aligned as R7 asks (DESIGN CHOICE, log entry 2). -/
structure Params where
  topByte    : Fin 262144
  baseIndex  : Nat
  symbolUnit : HostSymbolUnit
  deriving DecidableEq, Repr, Inhabited

/-- MAX_BYTES: the number of cells of BYTE_MEM (R7). -/
def Params.maxBytes (p : Params) : Nat := p.topByte.val + 1

/-- MAX_SYMS = 4 * MAX_BYTES: the number of cells of SYM_MEM (R7). -/
def Params.maxSyms (p : Params) : Nat := 4 * p.maxBytes

/-- ZWC_BASE: the host address of offset 0, aligned to 8 MiB (R7). -/
def Params.zwcBase (p : Params) : Nat := p.baseIndex * 0x800000

/-- Who moves in a step: the Host performs one bus access, the Engine takes its completion step (R13), or the external
reset event happens (R160). -/
inductive Turn where
  | host
  | engine
  | reset
  deriving DecidableEq, Repr

/-- FREE (U5, U6, U7; DESIGN CHOICE, log entry 2): the parameters of the build that is modelled. The spec leaves them OPEN. -/
opaque Config.params : Params

/-- FREE (U3, R164; DESIGN CHOICE, log entry 3): the 32-bit value the n-th host read of a buffer cell made while BUSY returns. -/
opaque Config.busyRead : Nat → Word

/-- FREE (U1, R160, R169; DESIGN CHOICE, log entry 4): the turns that the world around the machine will take after reset. -/
opaque Config.turns : List Turn

end Sys2Proof
end

