-- ==== Sys2Proof/Machine/State.lean ====
section
/-! DEFINITION. The state of the block and of its Host, as plain data, and the state after reset
(spec/10_state.md R22 to R39, spec/00_scope.md R13). -/

namespace Sys2Proof.Machine

/-- R36: the `written` cells of a buffer, as pairs of index and value with rising indices. An index that is not listed
is `unwritten`: it has no value, and a read of it faults (DESIGN CHOICE, log entry 1). -/
abbrev Memory (w : Nat) := List (Nat × BitVec w)

/-- The canonical form: indices strictly rise, so equal buffers are equal lists. -/
abbrev Memory.wf {w : Nat} (m : Memory w) : Prop := m.Pairwise (fun c d => c.1 < d.1)

/-- R37: the command in flight. -/
inductive Op where
  | none
  | encode
  | decode
  deriving DecidableEq, Repr

/-- STATUS.CAUSE (R27, R141). The reserved codes 5 to 7 are never produced and have no constructor. -/
inductive Cause where
  | none
  | length
  | symbol
  | capacity
  | badCmd
  deriving DecidableEq, Repr

/-- The fields of STATUS (R27). The reserved bits read 0 and are added where the word is read; LAST_OP takes the values of
`Op`, its code 3 being never produced (DEDUCED, log entry 13). -/
structure Status where
  busy   : Bool
  done   : Bool
  err    : Bool
  cause  : Cause
  lastOp : Op
  deriving DecidableEq, Repr

/-- One line of a host program (spec/30_encoding.md R76 to R78). `size` is the access size in bytes; 4 is the only one
the block admits (R55). -/
inductive HostOp where
  /-- `W`: MemWrite(off, size, v). -/
  | write (off : Offset) (size : Nat) (v : Word)
  /-- `R`: MemRead(off, size), the value noted, and asserted to be `expect` where that is given. -/
  | read (off : Offset) (size : Nat) (expect : Option Word)
  /-- `POLL`: read STATUS until BUSY is 0; the last value is noted. -/
  | poll
  deriving DecidableEq, Repr

/-- The model-only faults (R155). -/
inductive Fault where
  /-- ENG_UNINIT_INPUT: the Engine's completion step, reading an `unwritten` input cell (R64). Safe: the hardware goes on
  with an unspecified value. -/
  | engUninitInput
  /-- HOST_UNINIT_READ: a host read of an `unwritten` cell (R65). Safe: the hardware returns an unspecified value. -/
  | hostUninitRead
  /-- HOST_BUSY_WRITE: a host write of a buffer cell while a command is in flight (R163). Safe: the hardware's effect is
  unspecified. -/
  | hostBusyWrite
  /-- HOST_BUSERR: the host program receives BUSERR (R55, R155). Safe: the block answers BUSERR and does not change. -/
  | hostBusErr
  deriving DecidableEq, Repr

/-- The refusals. -/
inductive Refusal where
  /-- An arm of `exec` whose command has no meaning yet. No arm raises it: every command has its meaning. Safe. -/
  | notModelled (mnemonic : String)
  deriving DecidableEq, Repr

/-- The machine. CMD holds no state (R25), and CAP_BYTES and ALPHA0 to ALPHA3 are constants (R32, R33): they are read
through `readReg`. -/
structure State where
  /-- The build's parameters (R7); no step changes them. -/
  params       : Params
  /-- LEN (R26). -/
  len          : Word
  /-- STATUS (R27). -/
  status       : Status
  /-- OUT_LEN (R29). -/
  outLen       : Word
  /-- ERR_POS (R30). -/
  errPos       : Word
  /-- ERR_SYM (R31). -/
  errSym       : Word
  /-- BYTE_MEM (R34): cells of type `Host.Cell`. -/
  byteMem      : Memory 8
  /-- SYM_MEM (R35): cells of 32 bits (DEDUCED, log entry 10). -/
  symMem       : Memory 32
  /-- The Engine's command in flight (R37). -/
  op           : Op
  /-- The Engine's snapshot of LEN (R37). -/
  opLen        : Word
  /-- The Host's program: the lines not yet performed, the next one first (R13, R76). -/
  program      : List HostOp
  /-- The values the Host has noted, the oldest first (R76; DESIGN CHOICE, log entry 6). -/
  noted        : List Word
  /-- Whether an assertion of the host program has failed (R76; DESIGN CHOICE, log entry 6). -/
  assertFailed : Bool
  /-- The model's own: the turns to come, the next one first (DESIGN CHOICE, log entry 4). -/
  turns        : List Turn
  /-- The model's own: how many values of `Config.busyRead` have been drawn (DESIGN CHOICE, log entry 3). -/
  draws        : Nat
  deriving DecidableEq, Repr

/-- MAX_BYTES of this build. -/
def State.maxBytes (s : State) : Nat := s.params.maxBytes

/-- MAX_SYMS of this build. -/
def State.maxSyms (s : State) : Nat := s.params.maxSyms

/-- R38, R39, R160: the block right after reset, beside a Host with no program (DESIGN CHOICE, log entry 5). -/
def State.reset : State where
  params       := Config.params
  len          := 0x00000000
  status       := ⟨false, false, false, .none, .none⟩
  outLen       := 0x00000000
  errPos       := 0x00000000
  errSym       := 0x00000000
  byteMem      := []
  symMem       := []
  op           := .none
  opLen        := 0x00000000
  program      := []
  noted        := []
  assertFailed := false
  turns        := Config.turns
  draws        := 0

end Sys2Proof.Machine
end

