-- ==== Sys2Proof/Machine/Flags.lean ====
section
/-! DEFINITION. The STATUS register: its word and every value a rule gives it (spec/10_state.md R27,
spec/60_exceptions.md R141). -/

namespace Sys2Proof.Machine

/-- The code of STATUS.LAST_OP: 0 NONE, 1 ENCODE, 2 DECODE (R27). -/
def lastOpCode (o : Op) : BitVec 2 :=
  match o with
  | .none => 0
  | .encode => 1
  | .decode => 2

/-- The code of STATUS.CAUSE (R27, R141). -/
def causeCode (c : Cause) : BitVec 3 :=
  match c with
  | .none => 0
  | .length => 1
  | .symbol => 2
  | .capacity => 3
  | .badCmd => 4

/-- R27: STATUS as the host reads it. Bits 3, 7 and 31:10 are reserved and read 0. -/
def statusWord (st : Status) : Word :=
  0#22 ++ lastOpCode st.lastOp ++ 0#1 ++ causeCode st.cause ++ 0#1 ++
    BitVec.ofBool st.err ++ BitVec.ofBool st.done ++ BitVec.ofBool st.busy

/-- STATUS = 0: after reset (R38) and after CLEAR (R132). -/
def statusIdle : Status := ⟨false, false, false, .none, .none⟩

/-- R135: STATUS while the command `o` is in flight. -/
def statusIssued (o : Op) : Status := ⟨true, false, false, .none, o⟩

/-- R87, R109: STATUS after the command `o` ended without error. -/
def statusOk (o : Op) : Status := ⟨false, true, false, .none, o⟩

/-- R147, R133: STATUS after an error; `lastOp` is the LAST_OP it shows. -/
def statusError (c : Cause) (lastOp : Op) : Status := ⟨false, true, true, c, lastOp⟩

end Sys2Proof.Machine
end

