-- ==== Sys2Proof/Machine/Ops.lean ====
section
/-! DEFINITION. The named operations over buffers and registers: cells (spec/10_state.md R36, spec/20_memory.md R64), a
command's acceptance and issue (spec/42_control.md R134, R135), the one error entry and the return from an error
(spec/60_exceptions.md R147, R149), and reset (spec/70_reset_and_hazards.md R160). -/

namespace Sys2Proof.Machine

/-- What a command or a step answers. -/
abbrev Answer := Host.Outcome State Fault Refusal

/-! ## Cells -/

/-- The value of a cell; `none` is `unwritten` (R36). -/
def Memory.read {w : Nat} (m : Memory w) (a : Nat) : Option (BitVec w) :=
  match m with
  | [] => none
  | (b, v) :: rest => if b = a then some v else Memory.read rest a

/-- A write makes the cell `written(v)` (R36); the list stays in its canonical form. -/
def Memory.write {w : Nat} (m : Memory w) (a : Nat) (v : BitVec w) : Memory w :=
  match m with
  | [] => [(a, v)]
  | (b, u) :: rest =>
    if a < b then (a, v) :: (b, u) :: rest
    else if a = b then (a, v) :: rest
    else (b, u) :: Memory.write rest a v

/-- Writes of consecutive cells from index `a`, in ascending order. -/
def Memory.writeFrom {w : Nat} (m : Memory w) (a : Nat) (vs : List (BitVec w)) : Memory w :=
  match vs with
  | [] => m
  | v :: rest => Memory.writeFrom (m.write a v) (a + 1) rest

/-- R64: EngReadByte. -/
def engReadByte (s : State) (i : Nat) : Except Fault Byte :=
  match s.byteMem.read i with
  | none => .error .engUninitInput
  | some b => .ok b

/-- R64: EngReadSym. -/
def engReadSym (s : State) (j : Nat) : Except Fault Word :=
  match s.symMem.read j with
  | none => .error .engUninitInput
  | some w => .ok w

/-- R64: EngWriteByte for the cells 0, 1, ... in ascending order. -/
def engWriteBytes (bs : List Byte) (s : State) : State := { s with byteMem := s.byteMem.writeFrom 0 bs }

/-- R64: EngWriteSym for the cells 0, 1, ... in ascending order. -/
def engWriteSyms (ws : List Word) (s : State) : State := { s with symMem := s.symMem.writeFrom 0 ws }

/-! ## Commands -/

/-- R73, R134: a command written while BUSY is ignored, whatever its value; otherwise it acts. -/
def acceptCommand (act : State → State) (s : State) : Answer :=
  if s.status.busy then .next s else .next (act s)

/-- The result registers OUT_LEN, ERR_POS and ERR_SYM, and STATUS, written together. -/
def setResult (st : Status) (outLen errPos errSym : Word) (s : State) : State :=
  { s with status := st, outLen := outLen, errPos := errPos, errSym := errSym }

/-- R135: the common issue step of ENCODE and DECODE. -/
def issue (o : Op) (s : State) : State :=
  { setResult (statusIssued o) 0 0 0 s with op := o, opLen := s.len }

/-- R87, R109: the end of a command without error. ERR_POS and ERR_SYM stay as issue set
them (DEDUCED, log entry 11). -/
def finishOk (o : Op) (outLen : Word) (s : State) : State :=
  { s with outLen := outLen, status := statusOk o, op := .none }

/-- R147: `finish_error`, the single error entry of the completion steps. LAST_OP is kept from issue. -/
def finishError (c : Cause) (pos sym : Word) (s : State) : State :=
  { setResult (statusError c s.status.lastOp) 0 pos sym s with op := .none }

/-- R132, R149 (b): CLEAR's effect, the explicit return from an error. -/
def clearResult (s : State) : State := setResult statusIdle 0 0 0 s

/-- R133, R145: the record of a reserved command word. -/
def recordBadCmd (s : State) : State := setResult (statusError .badCmd .none) 0 0 0 s

/-! ## Reset -/

/-- R160, R38, R39: the external reset event. The constants of the build survive (R161); the Host and the model's own fields
are outside the block (DESIGN CHOICE, log entry 5). -/
def resetBlock (s : State) : State :=
  { s with len := 0, status := statusIdle, outLen := 0, errPos := 0, errSym := 0,
           byteMem := [], symMem := [], op := .none, opLen := 0 }

end Sys2Proof.Machine
end

