-- ==== Sys2Proof/Machine/Operands.lean ====
section
/-! DEFINITION. A command's one operand, the snapshot `op_len`, and the input cells it selects (spec/30_encoding.md R74,
spec/20_memory.md R64, spec/41_decoder.md R104). -/

namespace Sys2Proof.Machine

/-- R74: `op_len` as an unsigned number, with no scaling. -/
def operandCount (s : State) : Nat := s.opLen.toNat

/-- R144: ENCODE's input is larger than BYTE_MEM. -/
def encodeTooLong (s : State) : Bool := decide (operandCount s > s.maxBytes)

/-- R144: DECODE's input is larger than SYM_MEM. -/
def decodeTooLong (s : State) : Bool := decide (operandCount s > s.maxSyms)

/-- R103: the length check fails. -/
def decodeBadLength (s : State) : Bool := decide (operandCount s % 4 ≠ 0)

/-- R87: the `n` input bytes from cell `i`, read in ascending order; an `unwritten` cell faults (R64). -/
def engReadBytes (s : State) (i n : Nat) : Except Fault (List Byte) :=
  match n with
  | 0 => .ok []
  | n + 1 =>
    match engReadByte s i with
    | .error f => .error f
    | .ok b =>
      match engReadBytes s (i + 1) n with
      | .error f => .error f
      | .ok bs => .ok (b :: bs)

/-- What the symbol scan of R104 ends with. -/
inductive ScanResult where
  | crumbs (cs : List Crumb)
  | invalid (j : Nat) (w : Word)
  | fault (f : Fault)
  deriving DecidableEq, Repr

/-- R104: the scan of `n` symbol cells from cell `j` through DEC_LUT. It stops at the first invalid word, and the cells after
it are not read; an `unwritten` cell that is read faults (R64). -/
def engScanSyms (s : State) (j n : Nat) : ScanResult :=
  match n with
  | 0 => .crumbs []
  | n + 1 =>
    match engReadSym s j with
    | .error f => .fault f
    | .ok w =>
      match decLut w with
      | none => .invalid j w
      | some c =>
        match engScanSyms s (j + 1) n with
        | .crumbs cs => .crumbs (c :: cs)
        | .invalid k v => .invalid k v
        | .fault f => .fault f

end Sys2Proof.Machine
end

