-- ==== Sys2Proof/Machine/Decoder.lean ====
section
/-! DEFINITION. The DECODE command: its issue and its completion (spec/41_decoder.md R109). -/

namespace Sys2Proof.Machine

/-- R109, R135: the CMD write of DECODE issues the command. Its validation and transform are the Engine's completion step. -/
def execDecode (s : State) : Answer := acceptCommand (issue .decode) s

/-- R109: the completion of DECODE, one atomic Engine step (R61), with its checks in the order of R146. -/
def completeDecode (s : State) : Answer :=
  if decodeTooLong s then .next (finishError .capacity 0 0 s)
  else if decodeBadLength s then .next (finishError .length 0 0 s)
  else
    match engScanSyms s 0 (operandCount s) with
    | .fault f => .fault f
    | .invalid j w => .next (finishError .symbol (BitVec.ofNat 32 j) w s)
    | .crumbs cs =>
      .next (finishOk .decode (BitVec.ofNat 32 (operandCount s / 4)) (engWriteBytes (assembleBytes cs) s))

end Sys2Proof.Machine
end

