-- ==== Sys2Proof/Machine/Encoder.lean ====
section
/-! DEFINITION. The ENCODE command: its issue and its completion (spec/40_encoder.md R87). -/

namespace Sys2Proof.Machine

/-- R87, R135: the CMD write of ENCODE issues the command. Its transform is the Engine's completion step. -/
def execEncode (s : State) : Answer := acceptCommand (issue .encode) s

/-- R87: the completion of ENCODE, one atomic Engine step (R61). -/
def completeEncode (s : State) : Answer :=
  if encodeTooLong s then .next (finishError .capacity 0 0 s)
  else
    match engReadBytes s 0 (operandCount s) with
    | .error f => .fault f
    | .ok p => .next (finishOk .encode (BitVec.ofNat 32 (4 * operandCount s)) (engWriteSyms (encodeFn p) s))

end Sys2Proof.Machine
end

