-- ==== Sys2Proof/Machine/Engine.lean ====
section
/-! DEFINITION. The Engine's one step: the completion of the command in flight (spec/00_scope.md R13,
spec/20_memory.md R61). -/

namespace Sys2Proof.Machine

/-- R13, R169: the completion step is enabled while `op` is not NONE. With nothing in flight the Engine does nothing. -/
def engineMove (s : State) : Answer :=
  match s.op with
  | .none => .next s
  | .encode => completeEncode s
  | .decode => completeDecode s

end Sys2Proof.Machine
end

