-- ==== Sys2Proof/Syntax.lean ====
section
/-! DEFINITION. The command words of the CMD register, one constructor per row of spec/opcode_table.json
(spec/30_encoding.md R70, R71). -/

namespace Sys2Proof

/-- R71: the commands. A command has no register fields and no immediates (R70); its operand is the LEN register (R74). -/
inductive Instr where
  /-- 0x00000000 (R131). -/
  | nop
  /-- 0x00000001 (R87). -/
  | encode
  /-- 0x00000002 (R109). -/
  | decode
  /-- 0x00000003 (R132). -/
  | clear
  /-- Every other word, with its fields RSV (bits 31:4) and OPC (bits 3:0) (R72, R133). -/
  | reserved (rsv : BitVec 28) (opc : BitVec 4)
  deriving DecidableEq, Repr

end Sys2Proof
end

