-- ==== Sys2Proof/WellFormed.lean ====
section
/-! DEFINITION. Which terms of `Instr` stand for a command word (spec/30_encoding.md R72). -/

namespace Sys2Proof

/-- R72: a reserved word is one that R71 does not list: RSV is not 0, or OPC is 0x4 to 0xF. -/
def reservedFields (rsv : BitVec 28) (opc : BitVec 4) : Bool :=
  decide (rsv ≠ 0) || decide (4 ≤ opc.toNat)

/-- The four named commands carry no field; a reserved command carries a word that R71 does not list. -/
def Instr.wellFormed (i : Instr) : Bool :=
  match i with
  | .nop => true
  | .encode => true
  | .decode => true
  | .clear => true
  | .reserved rsv opc => reservedFields rsv opc

end Sys2Proof
end

