-- ==== Sys2Proof/Decode.lean ====
section
/-! DEFINITION. The decoder of command words and, after it, the encoder (spec/30_encoding.md R70 to R73, R75). -/

namespace Sys2Proof

/-- Why bits are no command word. -/
inductive DecodeError where
  /-- The number does not fit in the one 32-bit word that every command is (R70, R75). -/
  | notOneWord
  deriving DecidableEq, Repr

/-- OPC, bits 3:0 (R70). -/
def opcField (w : Word) : BitVec 4 := w.extractLsb' 0 4

/-- RSV, bits 31:4 (R70). -/
def rsvField (w : Word) : BitVec 28 := w.extractLsb' 4 28

/-- R71, R73: the whole word selects the command, and a word that R71 does not list is reserved. Every word decodes. -/
def decode (w : Word) : Instr :=
  if w = 0x00000000 then .nop
  else if w = 0x00000001 then .encode
  else if w = 0x00000002 then .decode
  else if w = 0x00000003 then .clear
  else .reserved (rsvField w) (opcField w)

/-- A number read as an instruction of `nbits` bits, bit 0 the least significant: the bits above `nbits` are 0, and the
instruction is the one word of R70. Bits that do not fit are rejected by name. -/
def decodeBits (nbits w : Nat) : Except DecodeError Instr :=
  if w < 2 ^ nbits ∧ w < 2 ^ 32 then .ok (decode (BitVec.ofNat 32 w)) else .error .notOneWord

/-- The decoder on a row of spec/opcode_table.json, as the host numbers its bits. The bus moves a command as one whole
word, so no byte order enters (spec/20_memory.md R57; DEDUCED, log entry 9). -/
def decodeTableWord (nbits w : Nat) : Option Instr :=
  match decodeBits nbits w with
  | .ok i => some i
  | .error _ => none

/-- R70, R71: the word of a command. -/
def encode (i : Instr) : Word :=
  match i with
  | .nop => 0x00000000
  | .encode => 0x00000001
  | .decode => 0x00000002
  | .clear => 0x00000003
  | .reserved rsv opc => rsv ++ opc

end Sys2Proof
end

