-- ==== Sys2Proof/Machine/Control.lean ====
section
/-! DEFINITION. The commands that complete within their CMD write: NOP, CLEAR and the reserved words
(spec/42_control.md R130 to R134). -/

namespace Sys2Proof.Machine

/-- R131: NOP does nothing. -/
def execNop (s : State) : Answer := acceptCommand (fun t => t) s

/-- R132: CLEAR discards the result of the last command. -/
def execClear (s : State) : Answer := acceptCommand clearResult s

/-- R133: a reserved word records BADCMD. The word itself, RSV and OPC, is recorded nowhere. -/
def execReserved (_rsv : BitVec 28) (_opc : BitVec 4) (s : State) : Answer := acceptCommand recordBadCmd s

end Sys2Proof.Machine
end

