-- ==== Sys2Proof/Machine/Dispatch.lean ====
section
/-! DEFINITION. The meaning of a command word written to CMD (spec/42_control.md R130). -/

namespace Sys2Proof.Machine

/-- R130: what the CMD write of a command does. ENCODE and DECODE issue here, and their transform is the Engine's later
completion step (R87, R109, R135). -/
def exec (i : Instr) (s : State) : Host.Outcome State Fault Refusal :=
  match i with
  | .nop => Sys2Proof.Machine.execNop s
  | .encode => Sys2Proof.Machine.execEncode s
  | .decode => Sys2Proof.Machine.execDecode s
  | .clear => Sys2Proof.Machine.execClear s
  | .reserved rsv opc => Sys2Proof.Machine.execReserved rsv opc s

end Sys2Proof.Machine
end

