-- ==== Sys2Proof/Machine/Bus.lean ====
section
/-! DEFINITION. The host bus: the offset map, the registers and the buffer windows (spec/20_memory.md R50 to R56, R65,
spec/10_state.md R24 to R33, spec/70_reset_and_hazards.md R163 to R166). -/

namespace Sys2Proof.Machine

/-- R24: the registers. -/
inductive Reg where
  | cmd
  | len
  | status
  | outLen
  | errPos
  | errSym
  | capBytes
  | alpha (v : Crumb)
  deriving DecidableEq, Repr

/-- What a mapped word offset reaches. -/
inductive Location where
  | reg (r : Reg)
  | byteCell (i : Nat)
  | symCell (j : Nat)
  deriving DecidableEq, Repr

/-- R50: what the block answers to an access. BUSERR comes with no state, because nothing changes (R55). -/
inductive BusReply (α : Type) where
  | ok (a : α)
  | busErr
  | fault (f : Fault)
  | refused (r : Refusal)
  deriving Repr

/-- The register rows of R51. -/
def regAt (a : Nat) : Option Reg :=
  match a with
  | 0x00 => some .cmd
  | 0x04 => some .len
  | 0x08 => some .status
  | 0x0C => some .outLen
  | 0x10 => some .errPos
  | 0x14 => some .errSym
  | 0x18 => some .capBytes
  | 0x20 => some (.alpha 0)
  | 0x24 => some (.alpha 1)
  | 0x28 => some (.alpha 2)
  | 0x2C => some (.alpha 3)
  | _ => none

/-- R51: the offset map; `none` where R55 (a), (c) or (d) answers BUSERR. -/
def locate (p : Params) (off : Offset) : Option Location :=
  if off.toNat % 4 ≠ 0 then none
  else if off.toNat < 0x30 then (regAt off.toNat).map .reg
  else if 0x100000 ≤ off.toNat ∧ off.toNat < 0x200000 then
    if (off.toNat - 0x100000) / 4 < p.maxBytes then some (.byteCell ((off.toNat - 0x100000) / 4)) else none
  else if 0x400000 ≤ off.toNat then
    if (off.toNat - 0x400000) / 4 < p.maxSyms then some (.symCell ((off.toNat - 0x400000) / 4)) else none
  else none

/-- R55: the check that comes before every other rule of the bus; `none` is BUSERR. -/
def busCheck (p : Params) (off : Offset) (size : Nat) : Option Location :=
  if size = 4 then locate p off else none

/-- R52: what a read of a register returns. No register read has a side effect, BUSY or not (R166). -/
def readReg (r : Reg) (s : State) : Word :=
  match r with
  | .cmd => 0x00000000
  | .len => s.len
  | .status => statusWord s.status
  | .outLen => s.outLen
  | .errPos => s.errPos
  | .errSym => s.errSym
  | .capBytes => BitVec.ofNat 32 s.maxBytes
  | .alpha v => alphabet.get v.toFin

/-- R130, R134: BUSY is tested by the command itself (DEDUCED, log entry 14). A CMD write performs the command its word decodes to. -/
def commandWrite (w : Word) (s : State) : Answer := exec (decode w) s

/-- What a performed command answers on the bus: OK (R72, R134). -/
def replyOf (o : Answer) : BusReply State :=
  match o with
  | .next s => .ok s
  | .fault f => .fault f
  | .refused r => .refused r

/-- R52, R56, R165: a write to CMD is a command, a write to LEN stores all 32 bits at once, and a write to any other register
is ignored and answers OK. -/
def writeReg (r : Reg) (v : Word) (s : State) : BusReply State :=
  match r with
  | .cmd => replyOf (commandWrite v s)
  | .len => .ok { s with len := v }
  | .status | .outLen | .errPos | .errSym | .capBytes | .alpha _ => .ok s

/-- R53, R54, R65, R164: a host read of a buffer cell. While a command is in flight the value is a free draw; `cell` is what
the cell holds as a word, `none` where it is `unwritten`. -/
def readCell (cell : Option Word) (s : State) : BusReply (Word × State) :=
  if s.op ≠ .none then .ok (Config.busyRead s.draws, { s with draws := s.draws + 1 })
  else
    match cell with
    | none => .fault .hostUninitRead
    | some v => .ok (v, s)

/-- R53, R54, R163: a host write of a buffer cell; `t` is the state with the cell written. -/
def writeCell (t s : State) : BusReply State :=
  if s.op ≠ .none then .fault .hostBusyWrite else .ok t

/-- R50, R52 to R55: MemRead. -/
def busRead (off : Offset) (size : Nat) (s : State) : BusReply (Word × State) :=
  match busCheck s.params off size with
  | none => .busErr
  | some (.reg r) => .ok (readReg r s, s)
  | some (.byteCell i) => readCell ((s.byteMem.read i).map (BitVec.setWidth 32)) s
  | some (.symCell j) => readCell (s.symMem.read j) s

/-- R50, R52 to R55: MemWrite. A byte cell takes bits 7:0 of the word, a symbol cell all 32. -/
def busWrite (off : Offset) (size : Nat) (v : Word) (s : State) : BusReply State :=
  match busCheck s.params off size with
  | none => .busErr
  | some (.reg r) => writeReg r v s
  | some (.byteCell i) => writeCell { s with byteMem := s.byteMem.write i (v.setWidth 8) } s
  | some (.symCell j) => writeCell { s with symMem := s.symMem.write j v } s

/-! ## Placement -/

/-- R7, R50: the host address of an offset of the block. -/
def hostAddress (p : Params) (off : Offset) : Nat := p.zwcBase + off.toNat

/-- R7, R50: the block's offset at a host address, where the address lies in its 8 MiB span. -/
def offsetAt (p : Params) (addr : Nat) : Option Offset :=
  if p.zwcBase ≤ addr ∧ addr < p.zwcBase + 0x800000 then some (BitVec.ofNat 23 (addr - p.zwcBase)) else none

end Sys2Proof.Machine
end

