-- ==== Sys2Proof/Machine/HostAgent.lean ====
section
/-! DEFINITION. The Host: it performs the next line of its program, one bus access at a time (spec/00_scope.md R13,
spec/20_memory.md R50, spec/30_encoding.md R76, R78). -/

namespace Sys2Proof.Machine

/-- The offset of STATUS (R51). -/
def statusOffset : Offset := 0x000008

/-- R76: the Host notes a value. -/
def noteValue (v : Word) (s : State) : State := { s with noted := s.noted ++ [v] }

/-- R76: `R target == value` asserts the value read (DESIGN CHOICE, log entry 6). -/
def checkExpected (expect : Option Word) (v : Word) (s : State) : State :=
  match expect with
  | none => s
  | some e => if v = e then s else { s with assertFailed := true }

/-- What an access of a host program comes to: BUSERR is a fault of the program (R55, R155; DESIGN CHOICE of the spec, log
entry 7). -/
def answerOf {α : Type} (r : BusReply α) (k : α → State) : Answer :=
  match r with
  | .ok a => .next (k a)
  | .busErr => .fault .hostBusErr
  | .fault f => .fault f
  | .refused r => .refused r

/-- R78: POLL after one read of STATUS: with BUSY = 0 the value is noted and the line is done, else the line stands. -/
def pollStep (rest : List HostOp) (v : Word) (s : State) : State :=
  if v.getLsbD 0 then s else noteValue v { s with program := rest }

/-- The Host performs the line `h`, which is followed by `rest`. -/
def performLine (h : HostOp) (rest : List HostOp) (s : State) : Answer :=
  match h with
  | .write off size v => answerOf (busWrite off size v { s with program := rest }) (fun t => t)
  | .read off size expect =>
    answerOf (busRead off size { s with program := rest }) (fun r => noteValue r.1 (checkExpected expect r.1 r.2))
  | .poll => answerOf (busRead statusOffset 4 s) (fun r => pollStep rest r.1 r.2)

/-- R13: the Host performs the next line of its program; a program with no line left does nothing (R170). -/
def hostMove (s : State) : Answer :=
  match s.program with
  | [] => .next s
  | h :: rest => performLine h rest s

end Sys2Proof.Machine
end

