-- ==== Sys2Proof/Machine/Step.lean ====
section
/-! DEFINITION. One step of the machine: one move of one agent, or the reset event (spec/00_scope.md R13,
spec/70_reset_and_hazards.md R160, R169). -/

namespace Sys2Proof.Machine

/-- The move of the named agent. -/
def takeTurn (t : Turn) (s : State) : Host.Outcome State Fault Refusal :=
  match t with
  | .host => hostMove s
  | .engine => engineMove s
  | .reset => .next (resetBlock s)

/-- One step. The next turn is taken where one is given. Where none is left, a command in flight completes, which is the weak
fairness of R169, and otherwise the Host moves (DESIGN CHOICE, log entry 4). -/
def step (s : State) : Host.Outcome State Fault Refusal :=
  match s.turns with
  | t :: rest => takeTurn t { s with turns := rest }
  | [] => if s.op = .none then hostMove s else engineMove s

/-- The host program's next line is `W CMD, w` and the Host has the next turn, so that the next step performs the command
(DESIGN CHOICE, log entry 5). The command is one word: the bits above `nbits` are 0. -/
def State.withFetchWord (s : State) (nbits w : Nat) : State :=
  { s with program := .write 0x000000 4 (BitVec.ofNat 32 (w % 2 ^ nbits)) :: s.program,
           turns := .host :: s.turns }

end Sys2Proof.Machine
end

