-- ==== Sys2Proof/Machine/HostLines.lean ====
section
/-! DEFINITION. The notation of host programs: targets, lines, pseudo-instructions, the reading of a program's text and the
encoding of a line (spec/30_encoding.md R76 to R78). -/

namespace Sys2Proof.Machine

/-! ## Targets and lines -/

/-- R76: what a line names. -/
inductive Target where
  | reg (r : Reg)
  | byteCell (i : Nat)
  | symCell (j : Nat)
  | raw (off : Nat)
  deriving DecidableEq, Repr

/-- R76, R78: one line of a host program, pseudo-instructions included. -/
inductive Line where
  | write (t : Target) (v : Word)
  | read (t : Target) (expect : Option Word)
  | nop
  | encode
  | decode
  | clear
  | poll
  | runEncode (n : Word)
  | runDecode (n : Word)
  deriving DecidableEq, Repr

/-- R51: the offset of a register. -/
def regOffset (r : Reg) : Offset :=
  match r with
  | .cmd => 0x000000
  | .len => 0x000004
  | .status => 0x000008
  | .outLen => 0x00000C
  | .errPos => 0x000010
  | .errSym => 0x000014
  | .capBytes => 0x000018
  | .alpha v => 0x000020 + v.setWidth 23 * 4

/-- R76: `offset(target)` as a number. -/
def targetAddress (t : Target) : Nat :=
  match t with
  | .reg r => (regOffset r).toNat
  | .byteCell i => 0x100000 + 4 * i
  | .symCell j => 0x400000 + 4 * j
  | .raw off => off

/-- R50, R76: the offset of a target, where it lies in the block's span. -/
def targetOffset (t : Target) : Option Offset :=
  if targetAddress t < 0x800000 then some (BitVec.ofNat 23 (targetAddress t)) else none

/-- R78: the CMD write that a command's name stands for. -/
def commandLine (i : Instr) : HostOp := .write (regOffset .cmd) 4 (Sys2Proof.encode i)

/-- R76, R78: the bus accesses a line stands for, each of 4 bytes. -/
def expandLine (l : Line) : Option (List HostOp) :=
  match l with
  | .write t v => (targetOffset t).map fun off => [.write off 4 v]
  | .read t expect => (targetOffset t).map fun off => [.read off 4 expect]
  | .nop => some [commandLine .nop]
  | .encode => some [commandLine .encode]
  | .decode => some [commandLine .decode]
  | .clear => some [commandLine .clear]
  | .poll => some [.poll]
  | .runEncode n => some [.write (regOffset .len) 4 n, commandLine .encode, .poll]
  | .runDecode n => some [.write (regOffset .len) 4 n, commandLine .decode, .poll]

/-! ## The text of a program (DESIGN CHOICE where R76 leaves the text open, log entry 12) -/

/-- A token, where one has been read. -/
def flushToken (cur : List Char) (rest : List (List Char)) : List (List Char) :=
  if cur = [] then rest else cur :: rest

/-- R76: the tokens of a line. Spaces part them, `,` and `=` stand alone, and a comment runs from `;` to the end. -/
def tokensOf (cur : List Char) (cs : List Char) : List (List Char) :=
  match cs with
  | [] => flushToken cur []
  | c :: rest =>
    if c = ';' then flushToken cur []
    else if c = ' ' ∨ c = '\t' ∨ c = '\r' then flushToken cur (tokensOf [] rest)
    else if c = ',' ∨ c = '=' then flushToken cur ([c] :: tokensOf [] rest)
    else tokensOf (cur ++ [c]) rest

/-- The value of a digit in base 10 or 16. -/
def digitValue (base : Nat) (c : Char) : Option Nat :=
  let v := if '0' ≤ c ∧ c ≤ '9' then c.toNat - '0'.toNat
    else if 'a' ≤ c ∧ c ≤ 'f' then c.toNat - 'a'.toNat + 10
    else if 'A' ≤ c ∧ c ≤ 'F' then c.toNat - 'A'.toNat + 10
    else base
  if v < base then some v else none

/-- The number that digits write, the most significant first, after the number `acc`. -/
def digitsFrom (base acc : Nat) (cs : List Char) : Option Nat :=
  match cs with
  | [] => some acc
  | c :: rest =>
    match digitValue base c with
    | none => none
    | some v => digitsFrom base (base * acc + v) rest

/-- R76, R9: a hexadecimal (`0x`) or decimal number. -/
def numberOf (cs : List Char) : Option Nat :=
  match cs with
  | [] => none
  | ['0', 'x'] => none
  | '0' :: 'x' :: rest => digitsFrom 16 0 rest
  | cs => digitsFrom 10 0 cs

/-- R76: `<value>`, a number of 32 bits. -/
def valueOf (cs : List Char) : Option Word :=
  match numberOf cs with
  | none => none
  | some n => if n < 2 ^ 32 then some (BitVec.ofNat 32 n) else none

/-- The number inside `NAME[<n>]`, after its opening bracket. -/
def indexOf (cs : List Char) : Option Nat :=
  match cs.reverse with
  | ']' :: rest => numberOf rest.reverse
  | _ => none

/-- R76: the names of the registers. -/
def regNames : List (List Char × Reg) :=
  [("CMD".toList, .cmd), ("LEN".toList, .len), ("STATUS".toList, .status), ("OUT_LEN".toList, .outLen),
   ("ERR_POS".toList, .errPos), ("ERR_SYM".toList, .errSym), ("CAP_BYTES".toList, .capBytes),
   ("ALPHA0".toList, .alpha 0), ("ALPHA1".toList, .alpha 1), ("ALPHA2".toList, .alpha 2), ("ALPHA3".toList, .alpha 3)]

/-- R76: `<target>`. -/
def targetOf (cs : List Char) : Option Target :=
  match regNames.lookup cs with
  | some r => some (.reg r)
  | none =>
    match cs with
    | 'B' :: 'Y' :: 'T' :: 'E' :: '[' :: rest => (indexOf rest).map .byteCell
    | 'S' :: 'Y' :: 'M' :: '[' :: rest => (indexOf rest).map .symCell
    | '@' :: rest => (numberOf rest).map .raw
    | _ => none

/-- R78: the pseudo-instructions without an operand. -/
def pseudoNames : List (List Char × Line) :=
  [("NOP".toList, .nop), ("ENCODE".toList, .encode), ("DECODE".toList, .decode), ("CLEAR".toList, .clear),
   ("POLL".toList, .poll)]

/-- R76, R78: the line that tokens write; `none` where they write no line. -/
def parseTokens (ts : List (List Char)) : Option Line :=
  match ts with
  | [name] => pseudoNames.lookup name
  | [head, arg] =>
    if head = "R".toList then (targetOf arg).map fun t => .read t none
    else if head = "RUN_ENCODE".toList then (valueOf arg).map .runEncode
    else if head = "RUN_DECODE".toList then (valueOf arg).map .runDecode
    else none
  | [head, target, [','], value] =>
    if head = "W".toList then
      match targetOf target, valueOf value with
      | some t, some v => some (.write t v)
      | _, _ => none
    else none
  | [head, target, ['='], ['='], value] =>
    if head = "R".toList then
      match targetOf target, valueOf value with
      | some t, some v => some (.read t (some v))
      | _, _ => none
    else none
  | _ => none

/-- The bus accesses of one line of text; a line with no token stands for none. -/
def assembleLine (cs : List Char) : Option (List HostOp) :=
  match tokensOf [] cs with
  | [] => some []
  | ts =>
    match parseTokens ts with
    | none => none
    | some l => expandLine l

/-- The lines of a text, after the characters `cur` of its current line. -/
def linesOf (cur : List Char) (cs : List Char) : List (List Char) :=
  match cs with
  | [] => [cur]
  | c :: rest => if c = '\n' then cur :: linesOf [] rest else linesOf (cur ++ [c]) rest

/-- The bus accesses of lines, in their order; `none` where some line writes nothing. -/
def assembleLines (ls : List (List Char)) : Option (List HostOp) :=
  match ls with
  | [] => some []
  | l :: rest =>
    match assembleLine l, assembleLines rest with
    | some a, some b => some (a ++ b)
    | _, _ => none

/-- R76 to R78: the host program that a text writes. -/
def assemble (text : String) : Option (List HostOp) := assembleLines (linesOf [] text.toList)

/-! ## The encoding of a line -/

/-- One hexadecimal digit, capitals from ten on as R77 writes them. -/
def hexDigit (n : Nat) : Char := if n < 10 then Char.ofNat ('0'.toNat + n) else Char.ofNat ('A'.toNat + (n - 10))

/-- The last `k` hexadecimal digits of a number. -/
def hexDigits (k n : Nat) : List Char :=
  match k with
  | 0 => []
  | k + 1 => hexDigits k (n / 16) ++ [hexDigit (n % 16)]

/-- R77: the encoding of an access, `W off value` or `R off`, with six and eight hexadecimal digits. An assertion is no part
of the access, and POLL repeats a read of STATUS (R78). -/
def encodeAccess (h : HostOp) : List Char :=
  match h with
  | .write off _ v => "W 0x".toList ++ hexDigits 6 off.toNat ++ " 0x".toList ++ hexDigits 8 v.toNat
  | .read off _ _ => "R 0x".toList ++ hexDigits 6 off.toNat
  | .poll => "R 0x".toList ++ hexDigits 6 (regOffset .status).toNat

end Sys2Proof.Machine
end

