-- ==== Sys2Proof/Safety.lean ====
section
/-! DEFINITION. What claims speak of: the invariant of the machine, the law of the STATUS word, the legal host lines, and the
end of a run (spec/10_state.md R23 to R37, spec/20_memory.md R55, spec/70_reset_and_hazards.md R162 to R170). -/

namespace Sys2Proof.Machine

/-- The buffers: canonical lists whose indices are cells that exist (R34, R35, R36). -/
structure State.BuffersOk (s : State) : Prop where
  byteWf    : s.byteMem.wf
  symWf     : s.symMem.wf
  byteRange : ∀ c ∈ s.byteMem, c.1 < s.maxBytes
  symRange  : ∀ c ∈ s.symMem, c.1 < s.maxSyms

/-- R37: `op` = NONE exactly when BUSY = 0; while BUSY, LAST_OP names the command in flight (R135). -/
structure State.EngineOk (s : State) : Prop where
  busyOp : s.status.busy = true ↔ s.op ≠ .none
  lastOp : s.status.busy = true → s.status.lastOp = s.op

/-- R28 (a) to (d). Part (e) holds of every `Status`. -/
structure Status.Ok (st : Status) : Prop where
  busyClear : st.busy = true → st.done = false ∧ st.err = false ∧ st.cause = .none
  errCause  : st.err = true → st.done = true ∧ st.cause ≠ .none
  okCause   : st.done = true → st.err = false → st.cause = .none
  idleClear : st.done = false → st.busy = false → st.err = false ∧ st.cause = .none

/-- What the result registers say: OUT_LEN (R29), ERR_POS and ERR_SYM (R30, R31), and each cause with the condition that
raises it (R142 to R145), in terms of the snapshot `op_len` of the command that ended. -/
structure State.ResultOk (s : State) : Prop where
  outLenZero  : s.status.done = false ∨ s.status.err = true → s.outLen = 0
  encodeOk    : s.status.done = true → s.status.err = false → s.status.lastOp = .encode →
    s.opLen.toNat ≤ s.maxBytes ∧ s.outLen.toNat = 4 * s.opLen.toNat
  decodeOk    : s.status.done = true → s.status.err = false → s.status.lastOp = .decode →
    s.opLen.toNat ≤ s.maxSyms ∧ 4 * s.outLen.toNat = s.opLen.toNat
  okOp        : s.status.done = true → s.status.err = false → s.status.lastOp ≠ .none
  noErrorInfo : s.status.cause ≠ .symbol → s.errPos = 0 ∧ s.errSym = 0
  symbolInfo  : s.status.cause = .symbol → s.status.lastOp = .decode ∧ s.opLen.toNat ≤ s.maxSyms ∧
    s.opLen.toNat % 4 = 0 ∧ s.errPos.toNat < s.opLen.toNat ∧ decLut s.errSym = none
  lengthInfo  : s.status.cause = .length → s.status.lastOp = .decode ∧ s.opLen.toNat ≤ s.maxSyms ∧
    s.opLen.toNat % 4 ≠ 0
  capInfo     : s.status.cause = .capacity →
    s.status.lastOp = .encode ∧ s.maxBytes < s.opLen.toNat ∨ s.status.lastOp = .decode ∧ s.maxSyms < s.opLen.toNat
  badCmdInfo  : s.status.cause = .badCmd → s.status.lastOp = .none

/-- The invariant of the machine. -/
structure State.Inv (s : State) : Prop where
  buffers : s.BuffersOk
  engine  : s.EngineOk
  status  : s.status.Ok
  result  : s.ResultOk

/-- R27, R28 on the word the host reads: the reserved bits are 0, and (a) to (e). -/
structure StatusWordLaw (w : Word) : Prop where
  reservedZero : w.getLsbD 3 = false ∧ w.getLsbD 7 = false ∧ w.extractLsb' 10 22 = 0#22
  busyClear    : w.getLsbD 0 = true → w.getLsbD 1 = false ∧ w.getLsbD 2 = false ∧ w.extractLsb' 4 3 = 0#3
  errCause     : w.getLsbD 2 = true → w.getLsbD 1 = true ∧ w.extractLsb' 4 3 ∈ [1#3, 2#3, 3#3, 4#3]
  okCause      : w.getLsbD 1 = true → w.getLsbD 2 = false → w.extractLsb' 4 3 = 0#3
  idleClear    : w.getLsbD 1 = false → w.getLsbD 0 = false → w.getLsbD 2 = false ∧ w.extractLsb' 4 3 = 0#3
  codes        : w.extractLsb' 4 3 ∉ [5#3, 6#3, 7#3] ∧ w.extractLsb' 8 2 ≠ 3#2

/-- R23: what the alphabet is as long as the block exists: distinct entries, and lookups that invert each other. -/
structure AlphabetLaw : Prop where
  distinct : ∀ c d : Crumb, encSym c = encSym d → c = d
  forth    : ∀ c : Crumb, decLut (encSym c) = some c
  back     : ∀ (w : Word) (c : Crumb), decLut w = some c → encSym c = w

/-- The cells 0 to `bs.length - 1` of BYTE_MEM hold the bytes `bs` (R34). -/
def State.holdsBytes (s : State) (bs : List Byte) : Prop :=
  ∀ i : Nat, i < bs.length → s.byteMem.read i = bs[i]?

/-- The cells 0 to `ws.length - 1` of SYM_MEM hold the words `ws` (R35). -/
def State.holdsSyms (s : State) (ws : List Word) : Prop :=
  ∀ j : Nat, j < ws.length → s.symMem.read j = ws[j]?

/-- R51, R55: the accesses that get BUSERR: misaligned, not of 4 bytes, or at an unmapped or beyond-capacity offset. -/
def BusErrAccess (p : Params) (off : Offset) (size : Nat) : Prop :=
  off.toNat % 4 ≠ 0 ∨ size ≠ 4 ∨
  (0x1C ≤ off.toNat ∧ off.toNat < 0x20) ∨ (0x30 ≤ off.toNat ∧ off.toNat < 0x100000) ∨
  (0x200000 ≤ off.toNat ∧ off.toNat < 0x400000) ∨
  (0x100000 + 4 * p.maxBytes ≤ off.toNat ∧ off.toNat < 0x200000) ∨
  0x400000 + 4 * (4 * p.maxBytes) ≤ off.toNat

/-- A host access that neither gets BUSERR (R55) nor meets a hazard (R163) or an `unwritten` cell (R65). -/
def accessAllowed (s : State) (isWrite : Bool) (off : Offset) (size : Nat) : Prop :=
  match busCheck s.params off size with
  | none => False
  | some (.reg _) => True
  | some (.byteCell i) => if isWrite then s.op = .none else s.op ≠ .none ∨ s.byteMem.read i ≠ none
  | some (.symCell j) => if isWrite then s.op = .none else s.op ≠ .none ∨ s.symMem.read j ≠ none

/-- The next line of the host program is performed without a fault. -/
def State.hostAllowed (s : State) : Prop :=
  match s.program with
  | [] => True
  | .write off size _ :: _ => accessAllowed s true off size
  | .read off size _ :: _ => accessAllowed s false off size
  | .poll :: _ => True

/-- The next step is a move of the Host: its turn is next, or no turn is left and nothing is in flight (DESIGN CHOICE, log
entry 4). -/
def State.hostMoves (s : State) : Prop := s.turns.head? = some .host ∨ s.turns = [] ∧ s.op = .none

/-- The next step is a move of the Engine: its turn is next, or no turn is left and a command is in flight (DESIGN CHOICE, log
entry 4). -/
def State.engineMoves (s : State) : Prop := s.turns.head? = some .engine ∨ s.turns = [] ∧ s.op ≠ .none

/-- An `unwritten` input cell that the completion of the command in flight reads (R64, R87, R109): past its checks, ENCODE
reads every cell below `op_len`, and DECODE reads on through valid words. -/
def State.readsUnwritten (s : State) : Prop :=
  s.op = .encode ∧ s.opLen.toNat ≤ s.maxBytes ∧ (∃ i, i < s.opLen.toNat ∧ s.byteMem.read i = none) ∨
  s.op = .decode ∧ s.opLen.toNat ≤ s.maxSyms ∧ s.opLen.toNat % 4 = 0 ∧
    ∃ j, j < s.opLen.toNat ∧ s.symMem.read j = none ∧
      ∀ i, i < j → ∃ w c, s.symMem.read i = some w ∧ decLut w = some c

/-- R170: the program has performed its last line and no command is in flight. -/
def State.runEnded (s : State) : Prop := s.program = [] ∧ s.status.busy = false

end Sys2Proof.Machine
end

