-- ==== Sys2Proof/Certificates/Slice0/Obligations.lean ====
section
/-! DEFINITION. The statements for the provers. -/

open Sys2Proof Sys2Proof.Machine

/-! ## Command words -/

/-- R71, R72: the words of the four commands, and reserved words of each kind (RSV = 0 with OPC from 4, RSV not 0). -/
def Obligations.DecodeReadsTheTableWords : Prop :=
  decode 0x00000000 = .nop ∧ decode 0x00000001 = .encode ∧ decode 0x00000002 = .decode ∧
    decode 0x00000003 = .clear ∧ decode 0x00000004 = .reserved 0 4 ∧ decode 0x0000000F = .reserved 0 15 ∧
    decode 0x00000010 = .reserved 1 0 ∧ decode 0x00000011 = .reserved 1 1 ∧
    decode 0x80000001 = .reserved 0x8000000 1

/-- Decode and encode agree: every well-formed command is read back from its word, with RSV and OPC at every value. -/
def Obligations.DecodeOfEncode : Prop :=
  ∀ i : Instr, i.wellFormed = true → decode (encode i) = i

/-- Every 32-bit word is the word of the one well-formed command it decodes to. -/
def Obligations.EncodeOfDecode : Prop :=
  ∀ w : Word, (decode w).wellFormed = true ∧ encode (decode w) = w

/-- R130: what a host write of the word `w` to CMD does, for every word and every state. -/
def Obligations.CmdWriteDispatch : Prop :=
  ∀ (w : Word) (s : State),
    busWrite 0x000000 4 w s =
      if s.status.busy = true then .ok s
      else if w = 0x00000000 then .ok s
      else if w = 0x00000001 then
        .ok { s with op := .encode, opLen := s.len, outLen := 0, errPos := 0, errSym := 0,
                     status := ⟨true, false, false, .none, .encode⟩ }
      else if w = 0x00000002 then
        .ok { s with op := .decode, opLen := s.len, outLen := 0, errPos := 0, errSym := 0,
                     status := ⟨true, false, false, .none, .decode⟩ }
      else if w = 0x00000003 then
        .ok { s with status := ⟨false, false, false, .none, .none⟩, outLen := 0, errPos := 0, errSym := 0 }
      else
        .ok { s with status := ⟨false, true, true, .badCmd, .none⟩, outLen := 0, errPos := 0, errSym := 0 }

/-! ## The datapaths as functions -/

/-- R81: CRUMB(b, k) is the shift and mask, and equals bits 7-2k to 6-2k. -/
def Obligations.CrumbIsTheBitGroup : Prop :=
  ∀ (b : Byte) (k : Fin 4),
    (crumb b k).setWidth 8 = (b >>> (6 - 2 * k.val)) &&& 0x3 ∧ crumb b k = b.extractLsb' (6 - 2 * k.val) 2

/-- R84: the shifter and the nibble split with the nibble-to-crumb LUT are equal on every byte. -/
def Obligations.TheTwoEncodersAgree : Prop :=
  ∀ b : Byte, (crumb b 0, crumb b 1) = nibbleToCrumbs (nibbles b).1 ∧
    (crumb b 2, crumb b 3) = nibbleToCrumbs (nibbles b).2

/-- R101: the four alphabet words and their crumbs; every other 32-bit word is INVALID. -/
def Obligations.DecLutTable : Prop :=
  ∀ w : Word, decLut w =
    if w = 0x0000200B then some 0 else if w = 0x0000200C then some 1
    else if w = 0x0000200D then some 2 else if w = 0x00002060 then some 3 else none

/-- R22, R85: the alphabet, each code point zero-extended to 32 bits. -/
def Obligations.EncSymTable : Prop :=
  encSym 0 = 0x0000200B ∧ encSym 1 = 0x0000200C ∧ encSym 2 = 0x0000200D ∧ encSym 3 = 0x00002060 ∧
    ∀ c : Crumb, (encSym c).extractLsb' 21 11 = 0#11

/-- R58, R86: ENCODE_FN has four symbols for each byte, and symbol 4i+k carries bits 7-2k to 6-2k of byte i. -/
def Obligations.EncodeFnSymbols : Prop :=
  ∀ p : List Byte, (encodeFn p).length = 4 * p.length ∧
    ∀ (i : Nat) (b : Byte) (k : Fin 4), p[i]? = some b →
      (encodeFn p)[4 * i + k.val]? = some (encSym (b.extractLsb' (6 - 2 * k.val) 2))

/-- R88 (d): distinct inputs, of the same or of different length, have distinct encodings. -/
def Obligations.EncodeFnIsInjective : Prop :=
  ∀ p q : List Byte, encodeFn p = encodeFn q → p = q

/-- R103, R104, R107: a bad length is reported whatever the words are; otherwise the first invalid word is reported with its
index; otherwise the decode succeeds. -/
def Obligations.DecodeFnOutcomes : Prop :=
  ∀ ws : List Word,
    (ws.length % 4 ≠ 0 → decodeFn ws = .errLength) ∧
    (ws.length % 4 = 0 → ∀ (j : Nat) (w : Word), ws[j]? = some w → decLut w = none →
      (∀ (i : Nat) (v : Word), i < j → ws[i]? = some v → decLut v ≠ none) → decodeFn ws = .errSymbol j w) ∧
    (ws.length % 4 = 0 → (∀ w ∈ ws, decLut w ≠ none) → ∃ bs, decodeFn ws = .ok bs)

/-- R108: the closed form of a successful decode. -/
def Obligations.DecodeFnClosedForm : Prop :=
  ∀ (ws : List Word) (bs : List Byte), decodeFn ws = .ok bs →
    4 * bs.length = ws.length ∧
    ∀ (i : Nat) (b : Byte), bs[i]? = some b → ∃ c0 c1 c2 c3 : Crumb,
      ws[4 * i]?.bind decLut = some c0 ∧ ws[4 * i + 1]?.bind decLut = some c1 ∧
      ws[4 * i + 2]?.bind decLut = some c2 ∧ ws[4 * i + 3]?.bind decLut = some c3 ∧
      b = (c0.setWidth 8 <<< 6) ||| (c1.setWidth 8 <<< 4) ||| (c2.setWidth 8 <<< 2) ||| c3.setWidth 8

/-- R111 (a) on the functions: decoding an encoding gives the payload. -/
def Obligations.DecodeFnOfEncodeFn : Prop :=
  ∀ p : List Byte, decodeFn (encodeFn p) = .ok p

/-- R111 (b) on the functions: encoding what was decoded gives the words. -/
def Obligations.EncodeFnOfDecodeFn : Prop :=
  ∀ (ws : List Word) (bs : List Byte), decodeFn ws = .ok bs → encodeFn bs = ws

/-! ## Commands at the CMD write -/

/-- R131: NOP changes nothing, in every state, BUSY or not; a word with OPC = 0 and RSV not 0 is not NOP. -/
def Obligations.NopDoesNothing : Prop :=
  (∀ s : State, exec .nop s = .next s ∧ busWrite 0x000000 4 0x00000000 s = .ok s) ∧
    ∀ rsv : BitVec 28, rsv ≠ 0 → decode (rsv ++ 0#4) = .reserved rsv 0

/-- R135: the issue step of ENCODE and of DECODE, with everything else unchanged. -/
def Obligations.EncodeAndDecodeIssue : Prop :=
  ∀ s : State, s.status.busy = false →
    exec .encode s = .next { s with
      op := .encode, opLen := s.len, outLen := 0, errPos := 0, errSym := 0,
      status := ⟨true, false, false, .none, .encode⟩ } ∧
    exec .decode s = .next { s with
      op := .decode, opLen := s.len, outLen := 0, errPos := 0, errSym := 0,
      status := ⟨true, false, false, .none, .decode⟩ } ∧
    statusWord ⟨true, false, false, .none, .encode⟩ = 0x00000101 ∧
    statusWord ⟨true, false, false, .none, .decode⟩ = 0x00000201

/-- R132: CLEAR, the word 3, zeroes STATUS and the result registers and changes nothing else; a second CLEAR changes nothing;
while BUSY it is ignored. -/
def Obligations.ClearZeroesTheResult : Prop :=
  decode 0x00000003 = .clear ∧ ∀ s : State,
    (s.status.busy = false → ∃ t, exec .clear s = .next t ∧ statusWord t.status = 0x00000000 ∧
      t = { s with status := t.status, outLen := 0, errPos := 0, errSym := 0 } ∧ exec .clear t = .next t) ∧
    (s.status.busy = true → exec .clear s = .next s)

/-- R72, R133, R145: a reserved word, which is every word but 0 to 3, records BADCMD and changes nothing else; while BUSY it
is ignored. -/
def Obligations.ReservedRecordsBadCmd : Prop :=
  (∀ w : Word, 3 < w.toNat → ∃ rsv opc, decode w = .reserved rsv opc) ∧
  ∀ (rsv : BitVec 28) (opc : BitVec 4) (s : State),
    (s.status.busy = false → ∃ t, exec (.reserved rsv opc) s = .next t ∧ statusWord t.status = 0x00000046 ∧
      t = { s with status := ⟨false, true, true, .badCmd, .none⟩, outLen := 0, errPos := 0, errSym := 0 }) ∧
    (s.status.busy = true → exec (.reserved rsv opc) s = .next s)

/-- R134: while BUSY every command is ignored, and its CMD write answers OK. -/
def Obligations.BusyIgnoresCommands : Prop :=
  ∀ s : State, s.status.busy = true →
    (∀ i : Instr, exec i s = .next s) ∧ ∀ w : Word, busWrite 0x000000 4 w s = .ok s

/-- The frame of every command at its CMD write: LEN, every cell of both buffers, the build's parameters and the Host are
unchanged, and NOP, CLEAR and a reserved word leave `op` and `op_len` alone. -/
def Obligations.CommandFrame : Prop :=
  ∀ (i : Instr) (s t : State), exec i s = .next t →
    t = { s with status := t.status, outLen := t.outLen, errPos := t.errPos, errSym := t.errSym,
                 op := t.op, opLen := t.opLen } ∧
    (∀ a, t.byteMem.read a = s.byteMem.read a) ∧ (∀ a, t.symMem.read a = s.symMem.read a) ∧
    (i ≠ .encode → i ≠ .decode → t.op = s.op ∧ t.opLen = s.opLen)

/-! ## Completions -/

/-- R87: with `op_len` within MAX_BYTES and the input cells written, the completion of ENCODE writes the symbols of
ENCODE_FN to SYM[0..4N-1], sets OUT_LEN and STATUS, and changes nothing else, SYM[j] for j >= 4N included. That ERR_POS and ERR_SYM stay as they were is
the model's choice (DEDUCED, log entry 11): R61 lists both as written, and in every state that keeps State.Inv they are 0. -/
def Obligations.EncodeCompletes : Prop :=
  ∀ (s : State) (p : List Byte), s.op = .encode → p.length = s.opLen.toNat → p.length ≤ s.maxBytes →
    s.holdsBytes p → ∃ t, engineMove s = .next t ∧
      (∀ j, j < 4 * p.length → t.symMem.read j = (encodeFn p)[j]?) ∧
      (∀ j, 4 * p.length ≤ j → t.symMem.read j = s.symMem.read j) ∧
      t.outLen.toNat = 4 * p.length ∧ statusWord t.status = 0x00000102 ∧
      t = { s with symMem := t.symMem, outLen := t.outLen, status := ⟨false, true, false, .none, .encode⟩,
                   op := .none }

/-- R87, R64: within MAX_BYTES the completion of ENCODE faults exactly when an input cell is `unwritten`. -/
def Obligations.EncodeFaultsOnUnwritten : Prop :=
  ∀ s : State, s.op = .encode → s.opLen.toNat ≤ s.maxBytes →
    (engineMove s = .fault .engUninitInput ↔ ∃ i, i < s.opLen.toNat ∧ s.byteMem.read i = none)

/-- R107, R109: with `op_len` within MAX_SYMS and the input cells written, the completion of DECODE is DECODE_FN: on success
it writes the bytes, OUT_LEN and STATUS and changes nothing else; on an error it records the cause and writes no cell. That
ERR_POS and ERR_SYM stay as they were on success is the model's choice (DEDUCED, log entry 11): R61 lists both as written, and
in every state that keeps State.Inv they are 0. -/
def Obligations.DecodeRefinesDecodeFn : Prop :=
  ∀ (s : State) (ws : List Word), s.op = .decode → ws.length = s.opLen.toNat → ws.length ≤ s.maxSyms →
    s.holdsSyms ws → ∃ t, engineMove s = .next t ∧
      match decodeFn ws with
      | .ok bs =>
        (∀ i, i < bs.length → t.byteMem.read i = bs[i]?) ∧
        (∀ i, bs.length ≤ i → t.byteMem.read i = s.byteMem.read i) ∧
        4 * t.outLen.toNat = ws.length ∧ statusWord t.status = 0x00000202 ∧
        t = { s with byteMem := t.byteMem, outLen := t.outLen, status := ⟨false, true, false, .none, .decode⟩,
                     op := .none }
      | .errLength =>
        t = { s with status := ⟨false, true, true, .length, s.status.lastOp⟩, outLen := 0, errPos := 0, errSym := 0,
                     op := .none }
      | .errSymbol j w =>
        t.errPos.toNat = j ∧
        t = { s with status := ⟨false, true, true, .symbol, s.status.lastOp⟩, outLen := 0, errPos := t.errPos,
                     errSym := w, op := .none }

/-- R109, R64: past the capacity and length checks, the completion of DECODE faults exactly when the scan reaches an
`unwritten` cell through valid words. -/
def Obligations.DecodeFaultsOnUnwritten : Prop :=
  ∀ s : State, s.op = .decode → s.opLen.toNat ≤ s.maxSyms → s.opLen.toNat % 4 = 0 →
    (engineMove s = .fault .engUninitInput ↔
      ∃ j, j < s.opLen.toNat ∧ s.symMem.read j = none ∧
        ∀ i, i < j → ∃ w c, s.symMem.read i = some w ∧ decLut w = some c)

/-- R144: CAPACITY, whatever the buffers hold, with no cell read or written. -/
def Obligations.CapacityError : Prop :=
  ∀ s : State,
    (s.op = .encode ∧ s.maxBytes < s.opLen.toNat ∨ s.op = .decode ∧ 4 * s.maxBytes < s.opLen.toNat) →
    engineMove s = .next { s with
      status := ⟨false, true, true, .capacity, s.status.lastOp⟩, outLen := 0, errPos := 0, errSym := 0, op := .none }

/-- R142: LENGTH, whatever SYM_MEM holds, with no SYM cell read. -/
def Obligations.LengthError : Prop :=
  ∀ s : State, s.op = .decode → s.opLen.toNat ≤ 4 * s.maxBytes → s.opLen.toNat % 4 ≠ 0 →
    engineMove s = .next { s with
      status := ⟨false, true, true, .length, s.status.lastOp⟩, outLen := 0, errPos := 0, errSym := 0, op := .none }

/-- R143: SYMBOL, with the lowest index of an invalid word and that word. Cells after it are not read: they may be
`unwritten`. -/
def Obligations.SymbolError : Prop :=
  ∀ (s : State) (j : Nat) (w : Word), s.op = .decode → s.opLen.toNat ≤ 4 * s.maxBytes → s.opLen.toNat % 4 = 0 →
    j < s.opLen.toNat → s.symMem.read j = some w → decLut w = none →
    (∀ i, i < j → ∃ v c, s.symMem.read i = some v ∧ decLut v = some c) →
    ∃ t, engineMove s = .next t ∧ t.errPos.toNat = j ∧
      t = { s with status := ⟨false, true, true, .symbol, s.status.lastOp⟩, outLen := 0, errPos := t.errPos,
                   errSym := w, op := .none }

/-- R110: a DECODE that ends with ERR = 1 leaves BYTE_MEM as it was and OUT_LEN = 0; one that ends with ERR = 0 has written
exactly BYTE[0..L/4-1]. -/
def Obligations.DecodeIsAllOrNothing : Prop :=
  ∀ s t : State, s.op = .decode → engineMove s = .next t →
    (t.status.err = true → t.byteMem = s.byteMem ∧ t.outLen = 0) ∧
    (t.status.err = false →
      (∀ i, i < s.opLen.toNat / 4 → t.byteMem.read i ≠ none) ∧
      ∀ i, s.opLen.toNat / 4 ≤ i → t.byteMem.read i = s.byteMem.read i)

/-- R150: the only error that ENCODE records is CAPACITY. -/
def Obligations.EncodeRecordsOnlyCapacity : Prop :=
  ∀ s t : State, s.op = .encode → engineMove s = .next t → t.status.err = true →
    t.status.cause = .capacity ∧ s.maxBytes < s.opLen.toNat

/-- R147: `finish_error` is all the state an error saves. -/
def Obligations.FinishErrorSaves : Prop :=
  ∀ (c : Cause) (pos sym : Word) (s : State),
    finishError c pos sym s = { s with
      outLen := 0, errPos := pos, errSym := sym, status := ⟨false, true, true, c, s.status.lastOp⟩, op := .none }

/-- R13: with nothing in flight the Engine changes nothing. The frame of its move with a command in flight: LEN,
`op_len`, the build's parameters and the Host never change; BYTE_MEM changes only in a DECODE, and SYM_MEM only in an
ENCODE. -/
def Obligations.EngineFrame : Prop :=
  ∀ s t : State, engineMove s = .next t →
    (s.op = .none → t = s) ∧
    t = { s with status := t.status, outLen := t.outLen, errPos := t.errPos, errSym := t.errSym,
                 byteMem := t.byteMem, symMem := t.symMem, op := .none } ∧
    (s.op ≠ .decode → ∀ i, t.byteMem.read i = s.byteMem.read i) ∧
    (s.op ≠ .encode → ∀ j, t.symMem.read j = s.symMem.read j)

/-- R88 (c), R148: ENCODE's outcome and its output cells depend only on `op_len` and the input cells. -/
def Obligations.EncodeDependsOnlyOnInput : Prop :=
  ∀ s u t : State, s.op = .encode → u.op = .encode → u.params = s.params → u.opLen = s.opLen →
    u.status.lastOp = s.status.lastOp →
    (∀ i, i < s.opLen.toNat → u.byteMem.read i = s.byteMem.read i) → engineMove s = .next t →
    ∃ v, engineMove u = .next v ∧ v.status = t.status ∧ v.outLen = t.outLen ∧
      (t.status.err = true → v.errPos = t.errPos ∧ v.errSym = t.errSym) ∧
      ∀ j, j < t.outLen.toNat → v.symMem.read j = t.symMem.read j

/-- R148: DECODE's outcome and its output cells depend only on `op_len` and the input cells. -/
def Obligations.DecodeDependsOnlyOnInput : Prop :=
  ∀ s u t : State, s.op = .decode → u.op = .decode → u.params = s.params → u.opLen = s.opLen →
    u.status.lastOp = s.status.lastOp →
    (∀ j, j < s.opLen.toNat → u.symMem.read j = s.symMem.read j) → engineMove s = .next t →
    ∃ v, engineMove u = .next v ∧ v.status = t.status ∧ v.outLen = t.outLen ∧
      (t.status.err = true → v.errPos = t.errPos ∧ v.errSym = t.errSym) ∧
      ∀ i, i < t.outLen.toNat → v.byteMem.read i = t.byteMem.read i

/-- R111 (a): ENCODE of N <= MAX_BYTES bytes completes, and a later DECODE of the 4N symbols it wrote gives the bytes back,
whatever the host did to LEN, BYTE_MEM and the rest of the state between the two commands. -/
def Obligations.EncodeThenDecode : Prop :=
  ∀ (s : State) (p : List Byte), s.status.busy = false → s.len.toNat = p.length → p.length ≤ s.maxBytes →
    s.holdsBytes p → ∃ s' t, exec .encode s = .next s' ∧ engineMove s' = .next t ∧ t.status.err = false ∧
      ∀ u : State, u.params = s.params → u.status.busy = false → u.len.toNat = 4 * p.length →
        (∀ j, j < 4 * p.length → u.symMem.read j = t.symMem.read j) →
        ∃ u' v, exec .decode u = .next u' ∧ engineMove u' = .next v ∧ v.status.err = false ∧
          v.outLen.toNat = p.length ∧ v.holdsBytes p

/-- R111 (b): DECODE of L alphabet words, L a multiple of 4 within MAX_SYMS, completes, and a later ENCODE of the L/4 bytes it
wrote gives the words back. -/
def Obligations.DecodeThenEncode : Prop :=
  ∀ (s : State) (ws : List Word), s.status.busy = false → s.len.toNat = ws.length → ws.length ≤ s.maxSyms →
    ws.length % 4 = 0 → (∀ w ∈ ws, decLut w ≠ none) → s.holdsSyms ws →
    ∃ s' t, exec .decode s = .next s' ∧ engineMove s' = .next t ∧ t.status.err = false ∧
      ∀ u : State, u.params = s.params → u.status.busy = false → 4 * u.len.toNat = ws.length →
        (∀ i, i < ws.length / 4 → u.byteMem.read i = t.byteMem.read i) →
        ∃ u' v, exec .encode u = .next u' ∧ engineMove u' = .next v ∧ v.status.err = false ∧
          v.outLen.toNat = ws.length ∧ v.holdsSyms ws

/-! ## The bus -/

/-- R51, R55: an access gets BUSERR exactly when it is misaligned, is not of 4 bytes, or is at an unmapped or
beyond-capacity offset. The reply carries no state, and the host program that made the access faults. -/
def Obligations.BusErrors : Prop :=
  ∀ (off : Offset) (size : Nat) (v : Word) (expect : Option Word) (rest : List HostOp) (s : State),
    (busRead off size s = .busErr ↔ BusErrAccess s.params off size) ∧
    (busWrite off size v s = .busErr ↔ BusErrAccess s.params off size) ∧
    (BusErrAccess s.params off size → s.program = .write off size v :: rest → hostMove s = .fault .hostBusErr) ∧
    (BusErrAccess s.params off size → s.program = .read off size expect :: rest → hostMove s = .fault .hostBusErr)

/-- R51, R52: a read of each register returns its value and has no side effect, BUSY or not. -/
def Obligations.RegisterReads : Prop :=
  ∀ s : State,
    busRead 0x000000 4 s = .ok (0x00000000, s) ∧ busRead 0x000004 4 s = .ok (s.len, s) ∧
    busRead 0x000008 4 s = .ok (statusWord s.status, s) ∧ busRead 0x00000C 4 s = .ok (s.outLen, s) ∧
    busRead 0x000010 4 s = .ok (s.errPos, s) ∧ busRead 0x000014 4 s = .ok (s.errSym, s) ∧
    busRead 0x000018 4 s = .ok (BitVec.ofNat 32 s.maxBytes, s) ∧
    busRead 0x000020 4 s = .ok (0x0000200B, s) ∧ busRead 0x000024 4 s = .ok (0x0000200C, s) ∧
    busRead 0x000028 4 s = .ok (0x0000200D, s) ∧ busRead 0x00002C 4 s = .ok (0x00002060, s)

/-- R56: writes to the read-only registers answer OK and change nothing, and CMD reads 0, BUSY or not. -/
def Obligations.ReadOnlyWritesAreIgnored : Prop :=
  ∀ (v : Word) (s : State),
    (∀ off ∈ [0x000008#23, 0x00000C#23, 0x000010#23, 0x000014#23, 0x000018#23, 0x000020#23, 0x000024#23,
        0x000028#23, 0x00002C#23], busWrite off 4 v s = .ok s) ∧
    busRead 0x000000 4 s = .ok (0x00000000, s)

/-- R165: a host write to LEN stores all 32 bits at once, BUSY or not, and leaves the snapshot `op_len` alone. -/
def Obligations.LenWriteIsImmediate : Prop :=
  ∀ (v : Word) (s : State), busWrite 0x000004 4 v s = .ok { s with len := v }

/-- R53: the byte window. While a command is in flight a read returns a free draw (DESIGN CHOICE, log entry 3) and a write faults; otherwise
one byte sits in bits 7:0 of each word. -/
def Obligations.ByteWindow : Prop :=
  ∀ (s : State) (i : Nat) (v : Word), i < s.maxBytes →
    (s.op ≠ .none →
      busRead (BitVec.ofNat 23 (0x100000 + 4 * i)) 4 s =
        .ok (Config.busyRead s.draws, { s with draws := s.draws + 1 }) ∧
      busWrite (BitVec.ofNat 23 (0x100000 + 4 * i)) 4 v s = .fault .hostBusyWrite) ∧
    (s.op = .none →
      (s.byteMem.read i = none →
        busRead (BitVec.ofNat 23 (0x100000 + 4 * i)) 4 s = .fault .hostUninitRead) ∧
      (∀ b, s.byteMem.read i = some b →
        busRead (BitVec.ofNat 23 (0x100000 + 4 * i)) 4 s = .ok (b.setWidth 32, s)) ∧
      ∃ t, busWrite (BitVec.ofNat 23 (0x100000 + 4 * i)) 4 v s = .ok t ∧
        t.byteMem.read i = some (v.extractLsb' 0 8) ∧ (∀ k, k ≠ i → t.byteMem.read k = s.byteMem.read k) ∧
        t = { s with byteMem := t.byteMem })

/-- R54: the symbol window, with all 32 bits of each word. -/
def Obligations.SymWindow : Prop :=
  ∀ (s : State) (j : Nat) (v : Word), j < 4 * s.maxBytes →
    (s.op ≠ .none →
      busRead (BitVec.ofNat 23 (0x400000 + 4 * j)) 4 s =
        .ok (Config.busyRead s.draws, { s with draws := s.draws + 1 }) ∧
      busWrite (BitVec.ofNat 23 (0x400000 + 4 * j)) 4 v s = .fault .hostBusyWrite) ∧
    (s.op = .none →
      (s.symMem.read j = none →
        busRead (BitVec.ofNat 23 (0x400000 + 4 * j)) 4 s = .fault .hostUninitRead) ∧
      (∀ w, s.symMem.read j = some w →
        busRead (BitVec.ofNat 23 (0x400000 + 4 * j)) 4 s = .ok (w, s)) ∧
      ∃ t, busWrite (BitVec.ofNat 23 (0x400000 + 4 * j)) 4 v s = .ok t ∧
        t.symMem.read j = some v ∧ (∀ k, k ≠ j → t.symMem.read k = s.symMem.read k) ∧
        t = { s with symMem := t.symMem })

/-- R7, R50: the block's offsets and the host addresses of its 8 MiB span correspond one to one. -/
def Obligations.HostAddressesAndOffsets : Prop :=
  ∀ p : Params, p.zwcBase % 0x800000 = 0 ∧ (∀ off : Offset, offsetAt p (hostAddress p off) = some off) ∧
    ∀ (addr : Nat) (off : Offset), offsetAt p addr = some off → hostAddress p off = addr

/-! ## Steps -/

/-- A step whose next host line is a CMD write runs the command that the word decodes to, on the state without that line and
that turn; the step after `withFetchWord` runs the placed word on the state before it. -/
def Obligations.StepRunsTheDecodedCommand : Prop :=
  (∀ (s : State) (w : Word) (rest : List HostOp), s.program = .write 0x000000 4 w :: rest →
    (∀ ts, s.turns = .host :: ts → step s = exec (decode w) { s with program := rest, turns := ts }) ∧
    (s.turns = [] → s.op = .none → step s = exec (decode w) { s with program := rest })) ∧
  ∀ (s : State) (w : Word), step (s.withFetchWord 32 w.toNat) = exec (decode w) s

/-- R13, R169, R170: the agent that the next turn names moves; with no turn left a command in flight completes, and a run that
has ended stays as it is (DESIGN CHOICE, log entry 4). -/
def Obligations.StepTakesTheNextTurn : Prop :=
  ∀ s : State,
    (∀ ts, s.turns = .host :: ts → step s = hostMove { s with turns := ts }) ∧
    (∀ ts, s.turns = .engine :: ts → step s = engineMove { s with turns := ts }) ∧
    (s.turns = [] → s.op ≠ .none → step s = engineMove s) ∧
    (s.turns = [] → s.op = .none → step s = hostMove s) ∧
    (s.turns = [] → s.EngineOk → s.runEnded → step s = .next s)

/-- R160: reset, in every state and while BUSY too; the parameters, the Host and the model's own fields stay. -/
def Obligations.ResetFromAnyState : Prop :=
  ∀ (s : State) (ts : List Turn), s.turns = .reset :: ts →
    step s = .next { s with
      turns := ts, len := 0, status := ⟨false, false, false, .none, .none⟩, outLen := 0, errPos := 0, errSym := 0,
      byteMem := [], symMem := [], op := .none, opLen := 0 }

/-- R38, R39: what the host reads in each register after reset, and the cells and the Engine. -/
def Obligations.ResetValues : Prop :=
  ∀ s t : State, t = State.reset ∨ t = resetBlock s →
    readReg .cmd t = 0x00000000 ∧ readReg .len t = 0x00000000 ∧ readReg .status t = 0x00000000 ∧
    readReg .outLen t = 0x00000000 ∧ readReg .errPos t = 0x00000000 ∧ readReg .errSym t = 0x00000000 ∧
    readReg .capBytes t = BitVec.ofNat 32 t.maxBytes ∧
    readReg (.alpha 0) t = 0x0000200B ∧ readReg (.alpha 1) t = 0x0000200C ∧
    readReg (.alpha 2) t = 0x0000200D ∧ readReg (.alpha 3) t = 0x00002060 ∧
    (∀ i, t.byteMem.read i = none) ∧ (∀ j, t.symMem.read j = none) ∧ t.op = .none ∧ t.opLen = 0

/-- The invariant of the machine: canonical buffers within capacity, `op` and BUSY in step, the laws of STATUS, and result
registers that say what the last command did. Every step keeps it. -/
def Obligations.StepKeepsInv : Prop :=
  ∀ s t : State, s.Inv → Sys2Proof.Machine.step s = .next t → t.Inv

/-- The invariant holds at reset. -/
def Obligations.ResetMeetsInv : Prop := Sys2Proof.Machine.State.reset.Inv

/-- R28: the laws of the STATUS word that the host reads; every step keeps them, and reset meets them. -/
def Obligations.StepKeepsStatusLaws : Prop :=
  StatusWordLaw (readReg .status State.reset) ∧
    ∀ s t : State, StatusWordLaw (readReg .status s) → step s = .next t → StatusWordLaw (readReg .status t)

/-- R23, R102, R161: the alphabet is a bijection, DEC_LUT and ENC_SYM are inverse on it, and no step, reset included, changes it, ALPHA0 to ALPHA3 or CAP_BYTES. -/
def Obligations.ConstantsNeverChange : Prop :=
  AlphabetLaw ∧ ∀ s t : State, step s = .next t →
    t.params = s.params ∧ readReg .capBytes t = BitVec.ofNat 32 s.maxBytes ∧ ∀ v, readReg (.alpha v) t = encSym v

/-- R169: a command in flight is no longer in flight after a number of steps that the turns to come bound, or a step has
faulted on the way; where no turn to come is a reset, which abandons the command (R160), the command has ended with
DONE = 1. That the turns bound the wait is the model's choice (DESIGN CHOICE, log entry 4). -/
def Obligations.CompletionIsTaken : Prop :=
  ∀ s : State, s.op ≠ .none → ∃ k, k ≤ s.turns.length + 1 ∧
    match Sys2Proof.core.run k s with
    | .next t => t.op = .none ∧ (.reset ∉ s.turns → t.status.done = true)
    | .fault _ => True
    | .refused _ => False

/-- The Host's next line is performed exactly when it is a legal access that meets no hazard and, with nothing in flight, no
`unwritten` cell. A read of a buffer in flight is performed whatever the cell (R53, R54, R164); that `op` tells whether a
command is in flight is R53's and R54's own test (DEDUCED, log entry 14, for R163, which names BUSY). -/
def Obligations.HostMovesExactlyWhenAllowed : Prop :=
  ∀ s : State, (∃ t, hostMove s = .next t) ↔ s.hostAllowed

/-- R155: no step refuses, and each fault comes from the agent and from the access or the completion that R155 names:
ENG_UNINIT_INPUT from a completion step that reads an `unwritten` cell, the others from the Host's next line. Which agent moves
is the model's choice (DESIGN CHOICE, log entry 4). -/
def Obligations.FaultsAreThoseNamed : Prop :=
  ∀ s : State, (∀ r, step s ≠ .refused r) ∧
    ∀ f, step s = .fault f →
      match f with
      | .engUninitInput => s.engineMoves ∧ s.readsUnwritten
      | .hostUninitRead => s.hostMoves ∧ s.op = .none ∧ ∃ off expect rest, s.program = .read off 4 expect :: rest ∧
          ((∃ i, locate s.params off = some (.byteCell i) ∧ s.byteMem.read i = none) ∨
            ∃ j, locate s.params off = some (.symCell j) ∧ s.symMem.read j = none)
      | .hostBusyWrite => s.hostMoves ∧ s.op ≠ .none ∧ ∃ off v rest, s.program = .write off 4 v :: rest ∧
          ((∃ i, locate s.params off = some (.byteCell i)) ∨ ∃ j, locate s.params off = some (.symCell j))
      | .hostBusErr => s.hostMoves ∧ ∃ off size rest, busCheck s.params off size = none ∧
          ((∃ v, s.program = .write off size v :: rest) ∨ ∃ e, s.program = .read off size e :: rest)

/-- R36: nothing makes a cell `unwritten` again except reset. -/
def Obligations.WrittenCellsStayWritten : Prop :=
  ∀ s t : State, step s = .next t → s.turns.head? ≠ some .reset →
    (∀ i, s.byteMem.read i ≠ none → t.byteMem.read i ≠ none) ∧
    ∀ j, s.symMem.read j ≠ none → t.symMem.read j ≠ none

/-- R149: a recorded error stays in STATUS, ERR_POS and ERR_SYM over every step but reset and a CMD write, by the Host,
of a word other than NOP. -/
def Obligations.ErrorRecordStays : Prop :=
  ∀ s t : State, s.Inv → s.status.err = true → step s = .next t → s.turns.head? ≠ some .reset →
    (s.hostMoves → ∀ w rest, s.program = .write 0x000000 4 w :: rest → w = 0x00000000) →
    t.status = s.status ∧ t.errPos = s.errPos ∧ t.errSym = s.errSym

/-- R26, R34, R35: what can change LEN and the buffers: a host write, reset, and for the buffers the successful completion of
the command that outputs to them. -/
def Obligations.OnlyTheseWriteLenAndBuffers : Prop :=
  ∀ s t : State, step s = .next t → s.turns.head? ≠ some .reset →
    (t.len = s.len ∨ ∃ v rest, s.program = .write 0x000004 4 v :: rest ∧ t.len = v) ∧
    (t.byteMem = s.byteMem ∨ (s.op = .decode ∧ t.op = .none ∧ t.status.err = false) ∨
      ∃ off v rest i, s.op = .none ∧ s.program = .write off 4 v :: rest ∧
        locate s.params off = some (.byteCell i) ∧ t.byteMem = s.byteMem.write i (v.setWidth 8)) ∧
    (t.symMem = s.symMem ∨ (s.op = .encode ∧ t.op = .none ∧ t.status.err = false) ∨
      ∃ off v rest j, s.op = .none ∧ s.program = .write off 4 v :: rest ∧
        locate s.params off = some (.symCell j) ∧ t.symMem = s.symMem.write j v)

/-! ## Host programs -/

/-- R76: a read notes the value the bus answers and checks the program's assertion (DESIGN CHOICE, log entry 6); the block does not change,
but for the count of draws. -/
def Obligations.HostReadNotesTheValue : Prop :=
  ∀ (s u : State) (off : Offset) (expect : Option Word) (rest : List HostOp) (v : Word),
    s.program = .read off 4 expect :: rest → busRead off 4 { s with program := rest } = .ok (v, u) →
    ∃ t, hostMove s = .next t ∧ t.noted = s.noted ++ [v] ∧
      (t.assertFailed = true ↔ s.assertFailed = true ∨ ∃ e, expect = some e ∧ v ≠ e) ∧
      t = { s with program := rest, noted := t.noted, assertFailed := t.assertFailed, draws := t.draws }

/-- R78: the expansions of the pseudo-instructions, and POLL: it repeats the read of STATUS while BUSY is 1 and notes the last
value. -/
def Obligations.PseudoInstructions : Prop :=
  expandLine .nop = some [.write 0x000000 4 0x00000000] ∧
  expandLine .encode = some [.write 0x000000 4 0x00000001] ∧
  expandLine .decode = some [.write 0x000000 4 0x00000002] ∧
  expandLine .clear = some [.write 0x000000 4 0x00000003] ∧
  expandLine .poll = some [.poll] ∧
  (∀ n, expandLine (.runEncode n) =
    some [.write 0x000004 4 n, .write 0x000000 4 0x00000001, .poll]) ∧
  (∀ n, expandLine (.runDecode n) =
    some [.write 0x000004 4 n, .write 0x000000 4 0x00000002, .poll]) ∧
  ∀ (s : State) (rest : List HostOp), s.program = .poll :: rest →
    (s.status.busy = true → hostMove s = .next s) ∧
    (s.status.busy = false →
      hostMove s = .next { s with program := rest, noted := s.noted ++ [statusWord s.status] })

/-- Every access of a program that a text writes is of 4 bytes (R11, R76). -/
def Obligations.AssembledAccessesAreWords : Prop :=
  ∀ (text : String) (ops : List HostOp), assemble text = some ops → ∀ h ∈ ops,
    match h with
    | .write _ size _ => size = 4
    | .read _ size _ => size = 4
    | .poll => True
end

