-- ==== Sys2Proof/Laws/Codec.lean ====
section
/-! SUPPORT. The small laws of the datapath functions: the two lookups, the stages of one byte, and lengths. -/

namespace Sys2Proof.Machine

/-- DEC_LUT of each encoder symbol. -/
@[simp] theorem decLut_encSym (c : Crumb) : decLut (encSym c) = some c := by revert c; decide

/-- A word that DEC_LUT accepts is the encoder's symbol of its crumb. -/
theorem encSym_of_decLut {w : Word} {c : Crumb} (h : decLut w = some c) : encSym c = w := by
  unfold decLut at h
  split at h
  · rename_i hw; cases h; rw [hw]; decide
  split at h
  · rename_i hw; cases h; rw [hw]; decide
  split at h
  · rename_i hw; cases h; rw [hw]; decide
  split at h
  · rename_i hw; cases h; rw [hw]; decide
  · cases h

/-- The assembler undoes the shifter on one byte. -/
theorem align_crumbs (b : Byte) : align (agg (crumb b 0) (crumb b 1)) (agg (crumb b 2) (crumb b 3)) = b := by
  revert b; decide

/-- The shifter undoes the assembler on four crumbs. -/
theorem crumb_align (a b c d : Crumb) :
    crumb (align (agg a b) (agg c d)) 0 = a ∧ crumb (align (agg a b) (agg c d)) 1 = b ∧
      crumb (align (agg a b) (agg c d)) 2 = c ∧ crumb (align (agg a b) (agg c d)) 3 = d := by
  revert a b c d; decide

@[simp] theorem encodeByte_length (b : Byte) : (encodeByte b).length = 4 := rfl

@[simp] theorem encodeFn_nil : encodeFn [] = [] := rfl

@[simp] theorem encodeFn_cons (b : Byte) (p : List Byte) : encodeFn (b :: p) = encodeByte b ++ encodeFn p := rfl

@[simp] theorem assembleBytes_nil : assembleBytes [] = [] := rfl

@[simp] theorem assembleBytes_cons (a b c d : Crumb) (cs : List Crumb) :
    assembleBytes (a :: b :: c :: d :: cs) = align (agg a b) (agg c d) :: assembleBytes cs := rfl

/-- A scan that accepts every word yields one crumb a word. -/
theorem scanWords_ok_length {ws : List Word} {j : Nat} {cs : List Crumb} (h : scanWords j ws = .ok cs) :
    cs.length = ws.length := by
  induction ws generalizing j cs with
  | nil => cases h; rfl
  | cons w rest ih =>
    unfold scanWords at h
    split at h
    · cases h
    · split at h
      · rename_i hrest
        cases h
        simp [ih hrest]
      · cases h

/-- Four crumbs make one byte. -/
theorem assembleBytes_length (cs : List Crumb) : (assembleBytes cs).length = cs.length / 4 := by
  match cs with
  | [] => rfl
  | [_] => simp [assembleBytes, aggregate, alignAll]
  | [_, _] => simp [assembleBytes, aggregate, alignAll]
  | [_, _, _] => simp [assembleBytes, aggregate, alignAll]
  | a :: b :: c :: d :: rest =>
    simp only [assembleBytes_cons, List.length_cons, assembleBytes_length rest]
    omega

end Sys2Proof.Machine
end

