-- ==== Sys2Proof/Laws/Memory.lean ====
section
/-! SUPPORT. The laws of the buffers: a write keeps the canonical form, a read after a write, and equal reads of canonical
buffers mean equal buffers. -/

namespace Sys2Proof.Machine

variable {w : Nat}

/-- A read of an index below every listed one. -/
theorem Memory.read_of_lt (m : Memory w) (a : Nat) (h : ∀ c ∈ m, a < c.1) : m.read a = none := by
  induction m with
  | nil => rfl
  | cons c rest ih =>
    obtain ⟨b, v⟩ := c
    have hb : a < b := h (b, v) (by simp)
    have hne : b ≠ a := by omega
    simp [Memory.read, hne, ih fun d hd => h d (by simp [hd])]

/-- What a write lists: the cell written, and cells listed before. -/
theorem Memory.mem_write {m : Memory w} {a : Nat} {v : BitVec w} {c : Nat × BitVec w} (h : c ∈ m.write a v) :
    c = (a, v) ∨ c ∈ m := by
  induction m with
  | nil => exact .inl (by simpa [Memory.write] using h)
  | cons d rest ih =>
    obtain ⟨b, u⟩ := d
    unfold Memory.write at h
    split at h
    · rcases List.mem_cons.mp h with h | h
      · exact .inl h
      · exact .inr h
    · split at h
      · rcases List.mem_cons.mp h with h | h
        · exact .inl h
        · exact .inr (List.mem_cons_of_mem _ h)
      · rcases List.mem_cons.mp h with h | h
        · exact .inr (by simp [h])
        · rcases ih h with h | h
          · exact .inl h
          · exact .inr (List.mem_cons_of_mem _ h)

/-- A write keeps the canonical form. -/
theorem Memory.write_wf {m : Memory w} (h : m.wf) (a : Nat) (v : BitVec w) : (m.write a v).wf := by
  induction m with
  | nil => simp [Memory.write, Memory.wf]
  | cons d rest ih =>
    obtain ⟨b, u⟩ := d
    have hd := List.pairwise_cons.mp h
    unfold Memory.write
    split
    · rename_i hab
      refine List.pairwise_cons.mpr ⟨fun c hc => ?_, h⟩
      rcases List.mem_cons.mp hc with rfl | hc
      · exact hab
      · exact Nat.lt_trans hab (hd.1 c hc)
    · split
      · rename_i hab
        subst hab
        exact List.pairwise_cons.mpr ⟨hd.1, hd.2⟩
      · rename_i h1 h2
        refine List.pairwise_cons.mpr ⟨fun c hc => ?_, ih hd.2⟩
        rcases Memory.mem_write hc with rfl | hc
        · simp only; omega
        · exact hd.1 c hc

/-- A read after a write of the same cell. -/
@[simp] theorem Memory.read_write_same (m : Memory w) (a : Nat) (v : BitVec w) : (m.write a v).read a = some v := by
  induction m with
  | nil => simp [Memory.write, Memory.read]
  | cons d rest ih =>
    obtain ⟨b, u⟩ := d
    unfold Memory.write
    split
    · simp [Memory.read]
    · split
      · simp [Memory.read]
      · rename_i h1 h2
        simp [Memory.read, Ne.symm h2, ih]

/-- A read after a write of another cell. -/
theorem Memory.read_write_other (m : Memory w) {a b : Nat} (v : BitVec w) (h : b ≠ a) :
    (m.write a v).read b = m.read b := by
  induction m with
  | nil => simp [Memory.write, Memory.read, Ne.symm h]
  | cons d rest ih =>
    obtain ⟨c, u⟩ := d
    unfold Memory.write
    split
    · simp [Memory.read, Ne.symm h]
    · split
      · rename_i h1 h2
        subst h2
        simp [Memory.read, Ne.symm h]
      · simp [Memory.read, ih]

/-- A read after a write of some cell. -/
theorem Memory.read_write (m : Memory w) (a b : Nat) (v : BitVec w) :
    (m.write a v).read b = if b = a then some v else m.read b := by
  split
  · rename_i h; subst h; simp
  · rename_i h; exact m.read_write_other v h

/-- Writes of consecutive cells keep the canonical form. -/
theorem Memory.writeFrom_wf {m : Memory w} (h : m.wf) (a : Nat) (vs : List (BitVec w)) : (m.writeFrom a vs).wf := by
  induction vs generalizing m a with
  | nil => exact h
  | cons v rest ih => exact ih (Memory.write_wf h a v) (a + 1)

/-- What writes of consecutive cells list. -/
theorem Memory.mem_writeFrom {m : Memory w} {a : Nat} {vs : List (BitVec w)} {c : Nat × BitVec w}
    (h : c ∈ m.writeFrom a vs) : (a ≤ c.1 ∧ c.1 < a + vs.length) ∨ c ∈ m := by
  induction vs generalizing m a with
  | nil => exact .inr h
  | cons v rest ih =>
    rcases ih h with h | h
    · exact .inl (by simp only [List.length_cons]; omega)
    · rcases Memory.mem_write h with rfl | h
      · exact .inl (by simp)
      · exact .inr h

/-- A read after writes of consecutive cells. -/
theorem Memory.read_writeFrom (m : Memory w) (a b : Nat) (vs : List (BitVec w)) :
    (m.writeFrom a vs).read b = if a ≤ b ∧ b < a + vs.length then vs[b - a]? else m.read b := by
  induction vs generalizing m a with
  | nil => simp [Memory.writeFrom]
  | cons v rest ih =>
    rw [Memory.writeFrom, ih, Memory.read_write]
    by_cases hb : b = a
    · subst hb; simp
    · by_cases hr : a + 1 ≤ b ∧ b < a + 1 + rest.length
      · have h1 : a ≤ b ∧ b < a + (v :: rest).length := by simp only [List.length_cons]; omega
        rw [if_pos hr, if_pos h1, show b - a = (b - (a + 1)) + 1 by omega, List.getElem?_cons_succ]
      · have h1 : ¬(a ≤ b ∧ b < a + (v :: rest).length) := by simp only [List.length_cons]; omega
        rw [if_neg hr, if_neg h1, if_neg hb]

/-- A cell that reads as a value is listed. -/
theorem Memory.mem_of_read {m : Memory w} {a : Nat} {v : BitVec w} (h : m.read a = some v) : (a, v) ∈ m := by
  induction m with
  | nil => simp [Memory.read] at h
  | cons d rest ih =>
    obtain ⟨b, u⟩ := d
    unfold Memory.read at h
    split at h
    · rename_i hb; cases hb; cases h; simp
    · exact List.mem_cons_of_mem _ (ih h)

/-- Canonical buffers with equal reads are equal. -/
theorem Memory.ext_of_wf {m n : Memory w} (hm : m.wf) (hn : n.wf) (h : ∀ a, m.read a = n.read a) : m = n := by
  induction m generalizing n with
  | nil =>
    cases n with
    | nil => rfl
    | cons d rest => have := h d.1; simp [Memory.read] at this
  | cons c rest ih =>
    obtain ⟨a, v⟩ := c
    cases n with
    | nil => have := h a; simp [Memory.read] at this
    | cons d rest' =>
      obtain ⟨b, u⟩ := d
      have hc := List.pairwise_cons.mp hm
      have hd := List.pairwise_cons.mp hn
      have ha := h a
      have hb := h b
      have hab : a = b := by
        by_contra hne
        simp only [Memory.read, if_true, if_neg (Ne.symm hne)] at ha
        simp only [Memory.read, if_true, if_neg hne] at hb
        have h1 := hd.1 _ (Memory.mem_of_read ha.symm)
        have h2 := hc.1 _ (Memory.mem_of_read hb)
        simp only at h1 h2
        omega
      subst hab
      simp only [Memory.read, if_true, Option.some.injEq] at ha
      subst ha
      congr 1
      refine ih hc.2 hd.2 fun x => ?_
      by_cases hx : a = x
      · subst hx
        rw [Memory.read_of_lt rest a hc.1, Memory.read_of_lt rest' a hd.1]
      · simpa [Memory.read, hx] using h x

/-- Both buffers are in canonical form at reset. -/
theorem State.reset_memory_wf : State.reset.byteMem.wf ∧ State.reset.symMem.wf :=
  ⟨List.Pairwise.nil, List.Pairwise.nil⟩

/-- Every operation of the Engine on a buffer keeps the canonical form. -/
theorem engWriteBytes_wf {s : State} (h : s.byteMem.wf) (bs : List Byte) : (engWriteBytes bs s).byteMem.wf :=
  Memory.writeFrom_wf h 0 bs

theorem engWriteSyms_wf {s : State} (h : s.symMem.wf) (ws : List Word) : (engWriteSyms ws s).symMem.wf :=
  Memory.writeFrom_wf h 0 ws

end Sys2Proof.Machine
end

