-- ==== Sys2Proof/Laws/Operands.lean ====
section
/-! SUPPORT. What reading a command's input can do, said once for each operation. -/

namespace Sys2Proof.Machine

/-- Reading `n` bytes succeeds exactly with the values of the `n` cells. -/
theorem engReadBytes_ok {s : State} {i n : Nat} {p : List Byte} (h : engReadBytes s i n = .ok p) :
    p.length = n ∧ ∀ k, k < n → s.byteMem.read (i + k) = p[k]? := by
  induction n generalizing i p with
  | zero => cases h; simp
  | succ n ih =>
    unfold engReadBytes at h
    split at h
    · cases h
    · rename_i b hb
      split at h
      · cases h
      · rename_i bs hbs
        cases h
        obtain ⟨hl, hr⟩ := ih hbs
        refine ⟨by simp [hl], fun k hk => ?_⟩
        cases k with
        | zero =>
          unfold engReadByte at hb
          split at hb
          · cases hb
          · rename_i hm; cases hb; simpa using hm
        | succ k =>
          have := hr k (by omega)
          rw [show i + (k + 1) = i + 1 + k by omega, this]
          simp

/-- Cells that hold `p` are read as `p`. -/
theorem engReadBytes_of_cells {s : State} {p : List Byte} {i : Nat}
    (h : ∀ k, k < p.length → s.byteMem.read (i + k) = p[k]?) : engReadBytes s i p.length = .ok p := by
  induction p generalizing i with
  | nil => rfl
  | cons b rest ih =>
    have h0 : s.byteMem.read i = some b := by simpa using h 0 (by simp)
    have hr : engReadBytes s (i + 1) rest.length = .ok rest := ih fun k hk => by
      have := h (k + 1) (by simp only [List.length_cons]; omega)
      rw [show i + 1 + k = i + (k + 1) by omega, this]
      simp
    simp [engReadBytes, engReadByte, h0, hr]

/-- Reading bytes faults only on an `unwritten` cell, with the one fault of R64. -/
theorem engReadBytes_error {s : State} {i n : Nat} {f : Fault} (h : engReadBytes s i n = .error f) :
    f = .engUninitInput ∧ ∃ k, k < n ∧ s.byteMem.read (i + k) = none := by
  induction n generalizing i with
  | zero => cases h
  | succ n ih =>
    unfold engReadBytes at h
    split at h
    · rename_i hb
      unfold engReadByte at hb
      split at hb
      · rename_i hm; cases h; cases hb; exact ⟨rfl, 0, by omega, by simpa using hm⟩
      · cases hb
    · split at h
      · rename_i hbs
        cases h
        obtain ⟨hf, k, hk, hm⟩ := ih hbs
        exact ⟨hf, k + 1, by omega, by rw [show i + (k + 1) = i + 1 + k by omega]; exact hm⟩
      · cases h

/-- What a scan that accepts every word has read. -/
theorem engScanSyms_crumbs {s : State} {j n : Nat} {cs : List Crumb} (h : engScanSyms s j n = .crumbs cs) :
    cs.length = n ∧ ∀ k, k < n → ∃ w c, s.symMem.read (j + k) = some w ∧ decLut w = some c ∧ cs[k]? = some c := by
  induction n generalizing j cs with
  | zero => cases h; simp
  | succ n ih =>
    unfold engScanSyms at h
    split at h
    · cases h
    · rename_i w hw
      split at h
      · cases h
      · rename_i c hc
        split at h
        · rename_i cs' hcs
          cases h
          obtain ⟨hl, hr⟩ := ih hcs
          refine ⟨by simp [hl], fun k hk => ?_⟩
          cases k with
          | zero =>
            unfold engReadSym at hw
            split at hw
            · cases hw
            · rename_i hm; cases hw; exact ⟨w, c, by simpa using hm, hc, by simp⟩
          | succ k =>
            obtain ⟨w', c', h1, h2, h3⟩ := hr k (by omega)
            exact ⟨w', c', by rw [show j + (k + 1) = j + 1 + k by omega]; exact h1, h2, by simpa using h3⟩
        · cases h
        · cases h

/-- What a scan that stops at an invalid word has read: that word, and valid words before it. -/
theorem engScanSyms_invalid {s : State} {j n i : Nat} {v : Word} (h : engScanSyms s j n = .invalid i v) :
    j ≤ i ∧ i < j + n ∧ s.symMem.read i = some v ∧ decLut v = none ∧
      ∀ k, j ≤ k → k < i → ∃ w c, s.symMem.read k = some w ∧ decLut w = some c := by
  induction n generalizing j with
  | zero => cases h
  | succ n ih =>
    unfold engScanSyms at h
    split at h
    · cases h
    · rename_i w hw
      have hm : s.symMem.read j = some w := by
        unfold engReadSym at hw
        split at hw
        · cases hw
        · rename_i hm; cases hw; exact hm
      split at h
      · rename_i hc
        cases h
        exact ⟨by omega, by omega, hm, hc, fun k h1 h2 => by omega⟩
      · rename_i c hc
        split at h
        · cases h
        · rename_i hcs
          cases h
          obtain ⟨h1, h2, h3, h4, h5⟩ := ih hcs
          refine ⟨by omega, by omega, h3, h4, fun k hk1 hk2 => ?_⟩
          by_cases hkj : k = j
          · subst hkj; exact ⟨w, c, hm, hc⟩
          · exact h5 k (by omega) hk2
        · cases h

/-- A scan faults only on an `unwritten` cell that it reaches through valid words, with the one fault of R64. -/
theorem engScanSyms_fault {s : State} {j n : Nat} {f : Fault} (h : engScanSyms s j n = .fault f) :
    f = .engUninitInput ∧ ∃ i, j ≤ i ∧ i < j + n ∧ s.symMem.read i = none ∧
      ∀ k, j ≤ k → k < i → ∃ w c, s.symMem.read k = some w ∧ decLut w = some c := by
  induction n generalizing j with
  | zero => cases h
  | succ n ih =>
    unfold engScanSyms at h
    split at h
    · rename_i hw
      unfold engReadSym at hw
      split at hw
      · rename_i hm
        cases h; cases hw
        exact ⟨rfl, j, by omega, by omega, hm, fun k h1 h2 => by omega⟩
      · cases hw
    · rename_i w hw
      have hm : s.symMem.read j = some w := by
        unfold engReadSym at hw
        split at hw
        · cases hw
        · rename_i hm; cases hw; exact hm
      split at h
      · cases h
      · rename_i c hc
        split at h
        · cases h
        · cases h
        · rename_i hcs
          cases h
          obtain ⟨hf, i, h1, h2, h3, h4⟩ := ih hcs
          refine ⟨hf, i, by omega, by omega, h3, fun k hk1 hk2 => ?_⟩
          by_cases hkj : k = j
          · subst hkj; exact ⟨w, c, hm, hc⟩
          · exact h4 k (by omega) hk2

end Sys2Proof.Machine
end

