-- ==== Sys2Proof/Laws/PerInstr.lean ====
section
/-! SUPPORT. What holds of each instruction as syntax, one lemma a constructor. -/

namespace Sys2Proof

/-- The word of an instruction has the fields that its row of spec/opcode_table.json fixes, or that the term carries. -/
def Laws.TableRow.Statement (i : Instr) : Prop :=
  match i with
  | .nop => Sys2Proof.encode .nop &&& 0xFFFFFFFF = 0x00000000
  | .encode => Sys2Proof.encode .encode &&& 0xFFFFFFFF = 0x00000001
  | .decode => Sys2Proof.encode .decode &&& 0xFFFFFFFF = 0x00000002
  | .clear => Sys2Proof.encode .clear &&& 0xFFFFFFFF = 0x00000003
  | .reserved rsv opc =>
    rsvField (Sys2Proof.encode (.reserved rsv opc)) = rsv ∧ opcField (Sys2Proof.encode (.reserved rsv opc)) = opc

theorem Laws.TableRow.nop : Laws.TableRow.Statement .nop := by rfl

theorem Laws.TableRow.encode : Laws.TableRow.Statement .encode := by rfl

theorem Laws.TableRow.decode : Laws.TableRow.Statement .decode := by rfl

theorem Laws.TableRow.clear : Laws.TableRow.Statement .clear := by rfl

theorem Laws.TableRow.reserved (rsv : BitVec 28) (opc : BitVec 4) : Laws.TableRow.Statement (.reserved rsv opc) := by
  refine ⟨?_, ?_⟩ <;> apply BitVec.eq_of_getElem_eq <;> intro i hi
  · have h := BitVec.getLsbD_append (x := rsv) (y := opc) (i := 4 + i)
    simpa [Sys2Proof.encode, rsvField, BitVec.getLsbD_eq_getElem hi] using h
  · have h := BitVec.getLsbD_append (x := rsv) (y := opc) (i := i)
    simpa [Sys2Proof.encode, opcField, hi, BitVec.getLsbD_eq_getElem hi] using h

end Sys2Proof
end

