-- ==== Sys2Proof/Laws/State.lean ====
section
/-! SUPPORT. What each named update of the state does to each field, one lemma a field. -/

namespace Sys2Proof.Machine

section Updates
variable (s : State)

@[simp] theorem setResult_params (st : Status) (o p y : Word) : (setResult st o p y s).params = s.params := rfl
@[simp] theorem setResult_len (st : Status) (o p y : Word) : (setResult st o p y s).len = s.len := rfl
@[simp] theorem setResult_status (st : Status) (o p y : Word) : (setResult st o p y s).status = st := rfl
@[simp] theorem setResult_outLen (st : Status) (o p y : Word) : (setResult st o p y s).outLen = o := rfl
@[simp] theorem setResult_errPos (st : Status) (o p y : Word) : (setResult st o p y s).errPos = p := rfl
@[simp] theorem setResult_errSym (st : Status) (o p y : Word) : (setResult st o p y s).errSym = y := rfl
@[simp] theorem setResult_byteMem (st : Status) (o p y : Word) : (setResult st o p y s).byteMem = s.byteMem := rfl
@[simp] theorem setResult_symMem (st : Status) (o p y : Word) : (setResult st o p y s).symMem = s.symMem := rfl
@[simp] theorem setResult_op (st : Status) (o p y : Word) : (setResult st o p y s).op = s.op := rfl
@[simp] theorem setResult_opLen (st : Status) (o p y : Word) : (setResult st o p y s).opLen = s.opLen := rfl
@[simp] theorem setResult_program (st : Status) (o p y : Word) : (setResult st o p y s).program = s.program := rfl
@[simp] theorem setResult_noted (st : Status) (o p y : Word) : (setResult st o p y s).noted = s.noted := rfl
@[simp] theorem setResult_assertFailed (st : Status) (o p y : Word) : (setResult st o p y s).assertFailed = s.assertFailed := rfl
@[simp] theorem setResult_turns (st : Status) (o p y : Word) : (setResult st o p y s).turns = s.turns := rfl
@[simp] theorem setResult_draws (st : Status) (o p y : Word) : (setResult st o p y s).draws = s.draws := rfl
@[simp] theorem setResult_maxBytes (st : Status) (o p y : Word) : (setResult st o p y s).maxBytes = s.maxBytes := rfl
@[simp] theorem setResult_maxSyms (st : Status) (o p y : Word) : (setResult st o p y s).maxSyms = s.maxSyms := rfl

@[simp] theorem issue_params (o : Op) : (issue o s).params = s.params := rfl
@[simp] theorem issue_len (o : Op) : (issue o s).len = s.len := rfl
@[simp] theorem issue_status (o : Op) : (issue o s).status = statusIssued o := rfl
@[simp] theorem issue_outLen (o : Op) : (issue o s).outLen = 0 := rfl
@[simp] theorem issue_errPos (o : Op) : (issue o s).errPos = 0 := rfl
@[simp] theorem issue_errSym (o : Op) : (issue o s).errSym = 0 := rfl
@[simp] theorem issue_byteMem (o : Op) : (issue o s).byteMem = s.byteMem := rfl
@[simp] theorem issue_symMem (o : Op) : (issue o s).symMem = s.symMem := rfl
@[simp] theorem issue_op (o : Op) : (issue o s).op = o := rfl
@[simp] theorem issue_opLen (o : Op) : (issue o s).opLen = s.len := rfl
@[simp] theorem issue_program (o : Op) : (issue o s).program = s.program := rfl
@[simp] theorem issue_noted (o : Op) : (issue o s).noted = s.noted := rfl
@[simp] theorem issue_assertFailed (o : Op) : (issue o s).assertFailed = s.assertFailed := rfl
@[simp] theorem issue_turns (o : Op) : (issue o s).turns = s.turns := rfl
@[simp] theorem issue_draws (o : Op) : (issue o s).draws = s.draws := rfl
@[simp] theorem issue_maxBytes (o : Op) : (issue o s).maxBytes = s.maxBytes := rfl
@[simp] theorem issue_maxSyms (o : Op) : (issue o s).maxSyms = s.maxSyms := rfl

@[simp] theorem finishOk_params (o : Op) (n : Word) : (finishOk o n s).params = s.params := rfl
@[simp] theorem finishOk_len (o : Op) (n : Word) : (finishOk o n s).len = s.len := rfl
@[simp] theorem finishOk_status (o : Op) (n : Word) : (finishOk o n s).status = statusOk o := rfl
@[simp] theorem finishOk_outLen (o : Op) (n : Word) : (finishOk o n s).outLen = n := rfl
@[simp] theorem finishOk_errPos (o : Op) (n : Word) : (finishOk o n s).errPos = s.errPos := rfl
@[simp] theorem finishOk_errSym (o : Op) (n : Word) : (finishOk o n s).errSym = s.errSym := rfl
@[simp] theorem finishOk_byteMem (o : Op) (n : Word) : (finishOk o n s).byteMem = s.byteMem := rfl
@[simp] theorem finishOk_symMem (o : Op) (n : Word) : (finishOk o n s).symMem = s.symMem := rfl
@[simp] theorem finishOk_op (o : Op) (n : Word) : (finishOk o n s).op = .none := rfl
@[simp] theorem finishOk_opLen (o : Op) (n : Word) : (finishOk o n s).opLen = s.opLen := rfl
@[simp] theorem finishOk_program (o : Op) (n : Word) : (finishOk o n s).program = s.program := rfl
@[simp] theorem finishOk_noted (o : Op) (n : Word) : (finishOk o n s).noted = s.noted := rfl
@[simp] theorem finishOk_assertFailed (o : Op) (n : Word) : (finishOk o n s).assertFailed = s.assertFailed := rfl
@[simp] theorem finishOk_turns (o : Op) (n : Word) : (finishOk o n s).turns = s.turns := rfl
@[simp] theorem finishOk_draws (o : Op) (n : Word) : (finishOk o n s).draws = s.draws := rfl
@[simp] theorem finishOk_maxBytes (o : Op) (n : Word) : (finishOk o n s).maxBytes = s.maxBytes := rfl
@[simp] theorem finishOk_maxSyms (o : Op) (n : Word) : (finishOk o n s).maxSyms = s.maxSyms := rfl

@[simp] theorem finishError_params (c : Cause) (p y : Word) : (finishError c p y s).params = s.params := rfl
@[simp] theorem finishError_len (c : Cause) (p y : Word) : (finishError c p y s).len = s.len := rfl
@[simp] theorem finishError_status (c : Cause) (p y : Word) : (finishError c p y s).status = statusError c s.status.lastOp := rfl
@[simp] theorem finishError_outLen (c : Cause) (p y : Word) : (finishError c p y s).outLen = 0 := rfl
@[simp] theorem finishError_errPos (c : Cause) (p y : Word) : (finishError c p y s).errPos = p := rfl
@[simp] theorem finishError_errSym (c : Cause) (p y : Word) : (finishError c p y s).errSym = y := rfl
@[simp] theorem finishError_byteMem (c : Cause) (p y : Word) : (finishError c p y s).byteMem = s.byteMem := rfl
@[simp] theorem finishError_symMem (c : Cause) (p y : Word) : (finishError c p y s).symMem = s.symMem := rfl
@[simp] theorem finishError_op (c : Cause) (p y : Word) : (finishError c p y s).op = .none := rfl
@[simp] theorem finishError_opLen (c : Cause) (p y : Word) : (finishError c p y s).opLen = s.opLen := rfl
@[simp] theorem finishError_program (c : Cause) (p y : Word) : (finishError c p y s).program = s.program := rfl
@[simp] theorem finishError_noted (c : Cause) (p y : Word) : (finishError c p y s).noted = s.noted := rfl
@[simp] theorem finishError_assertFailed (c : Cause) (p y : Word) : (finishError c p y s).assertFailed = s.assertFailed := rfl
@[simp] theorem finishError_turns (c : Cause) (p y : Word) : (finishError c p y s).turns = s.turns := rfl
@[simp] theorem finishError_draws (c : Cause) (p y : Word) : (finishError c p y s).draws = s.draws := rfl
@[simp] theorem finishError_maxBytes (c : Cause) (p y : Word) : (finishError c p y s).maxBytes = s.maxBytes := rfl
@[simp] theorem finishError_maxSyms (c : Cause) (p y : Word) : (finishError c p y s).maxSyms = s.maxSyms := rfl

@[simp] theorem clearResult_params : (clearResult s).params = s.params := rfl
@[simp] theorem clearResult_len : (clearResult s).len = s.len := rfl
@[simp] theorem clearResult_status : (clearResult s).status = statusIdle := rfl
@[simp] theorem clearResult_outLen : (clearResult s).outLen = 0 := rfl
@[simp] theorem clearResult_errPos : (clearResult s).errPos = 0 := rfl
@[simp] theorem clearResult_errSym : (clearResult s).errSym = 0 := rfl
@[simp] theorem clearResult_byteMem : (clearResult s).byteMem = s.byteMem := rfl
@[simp] theorem clearResult_symMem : (clearResult s).symMem = s.symMem := rfl
@[simp] theorem clearResult_op : (clearResult s).op = s.op := rfl
@[simp] theorem clearResult_opLen : (clearResult s).opLen = s.opLen := rfl
@[simp] theorem clearResult_program : (clearResult s).program = s.program := rfl
@[simp] theorem clearResult_noted : (clearResult s).noted = s.noted := rfl
@[simp] theorem clearResult_assertFailed : (clearResult s).assertFailed = s.assertFailed := rfl
@[simp] theorem clearResult_turns : (clearResult s).turns = s.turns := rfl
@[simp] theorem clearResult_draws : (clearResult s).draws = s.draws := rfl
@[simp] theorem clearResult_maxBytes : (clearResult s).maxBytes = s.maxBytes := rfl
@[simp] theorem clearResult_maxSyms : (clearResult s).maxSyms = s.maxSyms := rfl

@[simp] theorem recordBadCmd_params : (recordBadCmd s).params = s.params := rfl
@[simp] theorem recordBadCmd_len : (recordBadCmd s).len = s.len := rfl
@[simp] theorem recordBadCmd_status : (recordBadCmd s).status = statusError .badCmd .none := rfl
@[simp] theorem recordBadCmd_outLen : (recordBadCmd s).outLen = 0 := rfl
@[simp] theorem recordBadCmd_errPos : (recordBadCmd s).errPos = 0 := rfl
@[simp] theorem recordBadCmd_errSym : (recordBadCmd s).errSym = 0 := rfl
@[simp] theorem recordBadCmd_byteMem : (recordBadCmd s).byteMem = s.byteMem := rfl
@[simp] theorem recordBadCmd_symMem : (recordBadCmd s).symMem = s.symMem := rfl
@[simp] theorem recordBadCmd_op : (recordBadCmd s).op = s.op := rfl
@[simp] theorem recordBadCmd_opLen : (recordBadCmd s).opLen = s.opLen := rfl
@[simp] theorem recordBadCmd_program : (recordBadCmd s).program = s.program := rfl
@[simp] theorem recordBadCmd_noted : (recordBadCmd s).noted = s.noted := rfl
@[simp] theorem recordBadCmd_assertFailed : (recordBadCmd s).assertFailed = s.assertFailed := rfl
@[simp] theorem recordBadCmd_turns : (recordBadCmd s).turns = s.turns := rfl
@[simp] theorem recordBadCmd_draws : (recordBadCmd s).draws = s.draws := rfl
@[simp] theorem recordBadCmd_maxBytes : (recordBadCmd s).maxBytes = s.maxBytes := rfl
@[simp] theorem recordBadCmd_maxSyms : (recordBadCmd s).maxSyms = s.maxSyms := rfl

@[simp] theorem resetBlock_params : (resetBlock s).params = s.params := rfl
@[simp] theorem resetBlock_len : (resetBlock s).len = 0 := rfl
@[simp] theorem resetBlock_status : (resetBlock s).status = statusIdle := rfl
@[simp] theorem resetBlock_outLen : (resetBlock s).outLen = 0 := rfl
@[simp] theorem resetBlock_errPos : (resetBlock s).errPos = 0 := rfl
@[simp] theorem resetBlock_errSym : (resetBlock s).errSym = 0 := rfl
@[simp] theorem resetBlock_byteMem : (resetBlock s).byteMem = [] := rfl
@[simp] theorem resetBlock_symMem : (resetBlock s).symMem = [] := rfl
@[simp] theorem resetBlock_op : (resetBlock s).op = .none := rfl
@[simp] theorem resetBlock_opLen : (resetBlock s).opLen = 0 := rfl
@[simp] theorem resetBlock_program : (resetBlock s).program = s.program := rfl
@[simp] theorem resetBlock_noted : (resetBlock s).noted = s.noted := rfl
@[simp] theorem resetBlock_assertFailed : (resetBlock s).assertFailed = s.assertFailed := rfl
@[simp] theorem resetBlock_turns : (resetBlock s).turns = s.turns := rfl
@[simp] theorem resetBlock_draws : (resetBlock s).draws = s.draws := rfl
@[simp] theorem resetBlock_maxBytes : (resetBlock s).maxBytes = s.maxBytes := rfl
@[simp] theorem resetBlock_maxSyms : (resetBlock s).maxSyms = s.maxSyms := rfl

@[simp] theorem engWriteBytes_params (bs : List Byte) : (engWriteBytes bs s).params = s.params := rfl
@[simp] theorem engWriteBytes_len (bs : List Byte) : (engWriteBytes bs s).len = s.len := rfl
@[simp] theorem engWriteBytes_status (bs : List Byte) : (engWriteBytes bs s).status = s.status := rfl
@[simp] theorem engWriteBytes_outLen (bs : List Byte) : (engWriteBytes bs s).outLen = s.outLen := rfl
@[simp] theorem engWriteBytes_errPos (bs : List Byte) : (engWriteBytes bs s).errPos = s.errPos := rfl
@[simp] theorem engWriteBytes_errSym (bs : List Byte) : (engWriteBytes bs s).errSym = s.errSym := rfl
@[simp] theorem engWriteBytes_byteMem (bs : List Byte) : (engWriteBytes bs s).byteMem = s.byteMem.writeFrom 0 bs := rfl
@[simp] theorem engWriteBytes_symMem (bs : List Byte) : (engWriteBytes bs s).symMem = s.symMem := rfl
@[simp] theorem engWriteBytes_op (bs : List Byte) : (engWriteBytes bs s).op = s.op := rfl
@[simp] theorem engWriteBytes_opLen (bs : List Byte) : (engWriteBytes bs s).opLen = s.opLen := rfl
@[simp] theorem engWriteBytes_program (bs : List Byte) : (engWriteBytes bs s).program = s.program := rfl
@[simp] theorem engWriteBytes_noted (bs : List Byte) : (engWriteBytes bs s).noted = s.noted := rfl
@[simp] theorem engWriteBytes_assertFailed (bs : List Byte) : (engWriteBytes bs s).assertFailed = s.assertFailed := rfl
@[simp] theorem engWriteBytes_turns (bs : List Byte) : (engWriteBytes bs s).turns = s.turns := rfl
@[simp] theorem engWriteBytes_draws (bs : List Byte) : (engWriteBytes bs s).draws = s.draws := rfl
@[simp] theorem engWriteBytes_maxBytes (bs : List Byte) : (engWriteBytes bs s).maxBytes = s.maxBytes := rfl
@[simp] theorem engWriteBytes_maxSyms (bs : List Byte) : (engWriteBytes bs s).maxSyms = s.maxSyms := rfl

@[simp] theorem engWriteSyms_params (ws : List Word) : (engWriteSyms ws s).params = s.params := rfl
@[simp] theorem engWriteSyms_len (ws : List Word) : (engWriteSyms ws s).len = s.len := rfl
@[simp] theorem engWriteSyms_status (ws : List Word) : (engWriteSyms ws s).status = s.status := rfl
@[simp] theorem engWriteSyms_outLen (ws : List Word) : (engWriteSyms ws s).outLen = s.outLen := rfl
@[simp] theorem engWriteSyms_errPos (ws : List Word) : (engWriteSyms ws s).errPos = s.errPos := rfl
@[simp] theorem engWriteSyms_errSym (ws : List Word) : (engWriteSyms ws s).errSym = s.errSym := rfl
@[simp] theorem engWriteSyms_byteMem (ws : List Word) : (engWriteSyms ws s).byteMem = s.byteMem := rfl
@[simp] theorem engWriteSyms_symMem (ws : List Word) : (engWriteSyms ws s).symMem = s.symMem.writeFrom 0 ws := rfl
@[simp] theorem engWriteSyms_op (ws : List Word) : (engWriteSyms ws s).op = s.op := rfl
@[simp] theorem engWriteSyms_opLen (ws : List Word) : (engWriteSyms ws s).opLen = s.opLen := rfl
@[simp] theorem engWriteSyms_program (ws : List Word) : (engWriteSyms ws s).program = s.program := rfl
@[simp] theorem engWriteSyms_noted (ws : List Word) : (engWriteSyms ws s).noted = s.noted := rfl
@[simp] theorem engWriteSyms_assertFailed (ws : List Word) : (engWriteSyms ws s).assertFailed = s.assertFailed := rfl
@[simp] theorem engWriteSyms_turns (ws : List Word) : (engWriteSyms ws s).turns = s.turns := rfl
@[simp] theorem engWriteSyms_draws (ws : List Word) : (engWriteSyms ws s).draws = s.draws := rfl
@[simp] theorem engWriteSyms_maxBytes (ws : List Word) : (engWriteSyms ws s).maxBytes = s.maxBytes := rfl
@[simp] theorem engWriteSyms_maxSyms (ws : List Word) : (engWriteSyms ws s).maxSyms = s.maxSyms := rfl

@[simp] theorem noteValue_params (v : Word) : (noteValue v s).params = s.params := rfl
@[simp] theorem noteValue_len (v : Word) : (noteValue v s).len = s.len := rfl
@[simp] theorem noteValue_status (v : Word) : (noteValue v s).status = s.status := rfl
@[simp] theorem noteValue_outLen (v : Word) : (noteValue v s).outLen = s.outLen := rfl
@[simp] theorem noteValue_errPos (v : Word) : (noteValue v s).errPos = s.errPos := rfl
@[simp] theorem noteValue_errSym (v : Word) : (noteValue v s).errSym = s.errSym := rfl
@[simp] theorem noteValue_byteMem (v : Word) : (noteValue v s).byteMem = s.byteMem := rfl
@[simp] theorem noteValue_symMem (v : Word) : (noteValue v s).symMem = s.symMem := rfl
@[simp] theorem noteValue_op (v : Word) : (noteValue v s).op = s.op := rfl
@[simp] theorem noteValue_opLen (v : Word) : (noteValue v s).opLen = s.opLen := rfl
@[simp] theorem noteValue_program (v : Word) : (noteValue v s).program = s.program := rfl
@[simp] theorem noteValue_noted (v : Word) : (noteValue v s).noted = s.noted ++ [v] := rfl
@[simp] theorem noteValue_assertFailed (v : Word) : (noteValue v s).assertFailed = s.assertFailed := rfl
@[simp] theorem noteValue_turns (v : Word) : (noteValue v s).turns = s.turns := rfl
@[simp] theorem noteValue_draws (v : Word) : (noteValue v s).draws = s.draws := rfl
@[simp] theorem noteValue_maxBytes (v : Word) : (noteValue v s).maxBytes = s.maxBytes := rfl
@[simp] theorem noteValue_maxSyms (v : Word) : (noteValue v s).maxSyms = s.maxSyms := rfl

end Updates

/-! ## The fields of the STATUS values -/

@[simp] theorem statusIdle_busy : statusIdle.busy = false := rfl
@[simp] theorem statusIdle_done : statusIdle.done = false := rfl
@[simp] theorem statusIdle_err : statusIdle.err = false := rfl
@[simp] theorem statusIdle_cause : statusIdle.cause = .none := rfl
@[simp] theorem statusIdle_lastOp : statusIdle.lastOp = .none := rfl
@[simp] theorem statusIssued_busy (o : Op) : (statusIssued o).busy = true := rfl
@[simp] theorem statusIssued_done (o : Op) : (statusIssued o).done = false := rfl
@[simp] theorem statusIssued_err (o : Op) : (statusIssued o).err = false := rfl
@[simp] theorem statusIssued_cause (o : Op) : (statusIssued o).cause = .none := rfl
@[simp] theorem statusIssued_lastOp (o : Op) : (statusIssued o).lastOp = o := rfl
@[simp] theorem statusOk_busy (o : Op) : (statusOk o).busy = false := rfl
@[simp] theorem statusOk_done (o : Op) : (statusOk o).done = true := rfl
@[simp] theorem statusOk_err (o : Op) : (statusOk o).err = false := rfl
@[simp] theorem statusOk_cause (o : Op) : (statusOk o).cause = .none := rfl
@[simp] theorem statusOk_lastOp (o : Op) : (statusOk o).lastOp = o := rfl
@[simp] theorem statusError_busy (c : Cause) (o : Op) : (statusError c o).busy = false := rfl
@[simp] theorem statusError_done (c : Cause) (o : Op) : (statusError c o).done = true := rfl
@[simp] theorem statusError_err (c : Cause) (o : Op) : (statusError c o).err = true := rfl
@[simp] theorem statusError_cause (c : Cause) (o : Op) : (statusError c o).cause = c := rfl
@[simp] theorem statusError_lastOp (c : Cause) (o : Op) : (statusError c o).lastOp = o := rfl

end Sys2Proof.Machine
end

