-- ==== Sys2Proof/Laws/Steps.lean ====
section
/-! SUPPORT. Everything that a command, the Engine, the bus, the Host and a step can answer, said once for each. -/

namespace Sys2Proof.Machine

/-- A command is ignored while BUSY and acts otherwise. -/
theorem acceptCommand_next {act : State → State} {s t : State} (h : acceptCommand act s = .next t) :
    s.status.busy = true ∧ t = s ∨ s.status.busy = false ∧ t = act s := by
  unfold acceptCommand at h
  split at h
  · rename_i hb; cases h; exact .inl ⟨hb, rfl⟩
  · rename_i hb; cases h; exact .inr ⟨by simpa using hb, rfl⟩

/-- What a command does when the block is idle. -/
def commandEffect (i : Instr) (s : State) : State :=
  match i with
  | .nop => s
  | .encode => issue .encode s
  | .decode => issue .decode s
  | .clear => clearResult s
  | .reserved _ _ => recordBadCmd s

/-- Every command answers a next state: unchanged while BUSY, its effect otherwise. -/
theorem exec_eq (i : Instr) (s : State) :
    exec i s = .next (if s.status.busy then s else commandEffect i s) := by
  cases i <;>
    simp only [exec, execNop, execEncode, execDecode, execClear, execReserved, acceptCommand, commandEffect] <;>
    split <;> rfl

/-- The ways ENCODE's completion can go. -/
theorem completeEncode_next {s t : State} (h : completeEncode s = .next t) :
    s.maxBytes < s.opLen.toNat ∧ t = finishError .capacity 0 0 s ∨
    ∃ p : List Byte, p.length = s.opLen.toNat ∧ s.opLen.toNat ≤ s.maxBytes ∧ s.holdsBytes p ∧
      t = finishOk .encode (BitVec.ofNat 32 (4 * s.opLen.toNat)) (engWriteSyms (encodeFn p) s) := by
  unfold completeEncode at h
  split at h
  · rename_i hc
    cases h
    exact .inl ⟨by simpa [encodeTooLong, operandCount] using hc, rfl⟩
  · rename_i hc
    split at h
    · cases h
    · rename_i p hp
      cases h
      obtain ⟨hl, hr⟩ := engReadBytes_ok hp
      exact .inr ⟨p, hl, by simpa [encodeTooLong, operandCount] using hc,
        fun i hi => by simpa using hr i (hl ▸ hi), rfl⟩

/-- The ways DECODE's completion can go. -/
theorem completeDecode_next {s t : State} (h : completeDecode s = .next t) :
    s.maxSyms < s.opLen.toNat ∧ t = finishError .capacity 0 0 s ∨
    s.opLen.toNat ≤ s.maxSyms ∧ s.opLen.toNat % 4 ≠ 0 ∧ t = finishError .length 0 0 s ∨
    s.opLen.toNat ≤ s.maxSyms ∧ s.opLen.toNat % 4 = 0 ∧
      ((∃ j w, engScanSyms s 0 s.opLen.toNat = .invalid j w ∧ t = finishError .symbol (BitVec.ofNat 32 j) w s) ∨
       ∃ cs, engScanSyms s 0 s.opLen.toNat = .crumbs cs ∧
        t = finishOk .decode (BitVec.ofNat 32 (s.opLen.toNat / 4)) (engWriteBytes (assembleBytes cs) s)) := by
  unfold completeDecode at h
  split at h
  · rename_i hc
    cases h
    exact .inl ⟨by simpa [decodeTooLong, operandCount] using hc, rfl⟩
  · rename_i hc
    have hc : s.opLen.toNat ≤ s.maxSyms := by simpa [decodeTooLong, operandCount] using hc
    split at h
    · rename_i hl
      cases h
      exact .inr (.inl ⟨hc, of_decide_eq_true hl, rfl⟩)
    · rename_i hl
      have hl : s.opLen.toNat % 4 = 0 := Decidable.not_not.mp fun hne => hl (decide_eq_true hne)
      split at h
      · cases h
      · rename_i hs
        cases h
        exact .inr (.inr ⟨hc, hl, .inl ⟨_, _, hs, rfl⟩⟩)
      · rename_i hs
        cases h
        exact .inr (.inr ⟨hc, hl, .inr ⟨_, hs, rfl⟩⟩)

/-- The Engine's move: nothing, or the completion of the command in flight. -/
theorem engineMove_next {s t : State} (h : engineMove s = .next t) :
    s.op = .none ∧ t = s ∨ s.op = .encode ∧ completeEncode s = .next t ∨
      s.op = .decode ∧ completeDecode s = .next t := by
  unfold engineMove at h
  split at h
  · rename_i ho; cases h; exact .inl ⟨ho, rfl⟩
  · rename_i ho; exact .inr (.inl ⟨ho, h⟩)
  · rename_i ho; exact .inr (.inr ⟨ho, h⟩)

/-- The Engine's move faults only with the one fault of R64, on an `unwritten` cell that its completion reads. -/
theorem engineMove_fault {s : State} {f : Fault} (h : engineMove s = .fault f) :
    f = .engUninitInput ∧ s.readsUnwritten := by
  unfold engineMove at h
  split at h
  · cases h
  · rename_i ho
    unfold completeEncode at h
    split at h
    · cases h
    · rename_i hc
      split at h
      · rename_i he
        cases h
        obtain ⟨hf, k, hk, hm⟩ := engReadBytes_error he
        exact ⟨hf, .inl ⟨ho, by simpa [encodeTooLong, operandCount] using hc, k, hk, by simpa using hm⟩⟩
      · cases h
  · rename_i ho
    unfold completeDecode at h
    split at h
    · cases h
    · rename_i hc
      split at h
      · cases h
      · rename_i hl
        split at h
        · rename_i he
          cases h
          obtain ⟨hf, i, -, hi, hm, hv⟩ := engScanSyms_fault he
          exact ⟨hf, .inr ⟨ho, by simpa [decodeTooLong, operandCount] using hc,
            Decidable.not_not.mp fun hne => hl (decide_eq_true hne), i, by simpa [operandCount] using hi, hm,
            fun k hk => hv k (Nat.zero_le k) hk⟩⟩
        all_goals cases h

/-- A mapped byte cell exists. -/
theorem locate_byteCell {p : Params} {off : Offset} {i : Nat} (h : locate p off = some (.byteCell i)) :
    i < p.maxBytes := by
  unfold locate at h
  split at h
  · cases h
  split at h
  · cases hr : regAt off.toNat <;> simp [hr] at h
  split at h
  · split at h
    · rename_i hlt; cases h; exact hlt
    · cases h
  split at h
  · split at h <;> cases h
  · cases h

/-- A mapped symbol cell exists. -/
theorem locate_symCell {p : Params} {off : Offset} {j : Nat} (h : locate p off = some (.symCell j)) :
    j < p.maxSyms := by
  unfold locate at h
  split at h
  · cases h
  split at h
  · cases hr : regAt off.toNat <;> simp [hr] at h
  split at h
  · split at h <;> cases h
  split at h
  · split at h
    · rename_i hlt; cases h; exact hlt
    · cases h
  · cases h

/-- What a MemWrite that answers OK has done. -/
theorem busWrite_ok {off : Offset} {size : Nat} {v : Word} {s t : State} (h : busWrite off size v s = .ok t) :
    exec (decode v) s = .next t ∨ t = { s with len := v } ∨ t = s ∨
    (∃ i, i < s.maxBytes ∧ s.op = .none ∧ t = { s with byteMem := s.byteMem.write i (v.setWidth 8) }) ∨
    ∃ j, j < s.maxSyms ∧ s.op = .none ∧ t = { s with symMem := s.symMem.write j v } := by
  unfold busWrite busCheck at h
  by_cases hsz : size = 4
  · rw [if_pos hsz] at h
    split at h
    · cases h
    · rename_i r _
      cases r <;> simp only [writeReg, commandWrite, replyOf] at h
      · split at h
        · rename_i he; cases h; exact .inl he
        · cases h
        · cases h
      all_goals cases h; simp
    · rename_i i hl
      unfold writeCell at h
      split at h
      · cases h
      · rename_i ho
        cases h
        exact .inr (.inr (.inr (.inl ⟨i, locate_byteCell hl, by simpa using ho, rfl⟩)))
    · rename_i j hl
      unfold writeCell at h
      split at h
      · cases h
      · rename_i ho
        cases h
        exact .inr (.inr (.inr (.inr ⟨j, locate_symCell hl, by simpa using ho, rfl⟩)))
  · rw [if_neg hsz] at h
    cases h

/-- A MemRead that answers a value changes at most the count of draws. -/
theorem busRead_ok {off : Offset} {size : Nat} {s t : State} {v : Word} (h : busRead off size s = .ok (v, t)) :
    t = s ∨ s.op ≠ .none ∧ t = { s with draws := s.draws + 1 } := by
  unfold busRead at h
  split at h
  · cases h
  · cases h; exact .inl rfl
  all_goals
    unfold readCell at h
    split at h
    · rename_i ho; cases h; exact .inr ⟨ho, rfl⟩
    · split at h
      · cases h
      · cases h; exact .inl rfl

/-- The Host's move leaves the block as one bus access leaves it, and changes besides only its own fields. -/
theorem hostMove_next {s t : State} (h : hostMove s = .next t) :
    t = s ∨
    (∃ off size v rest, s.program = .write off size v :: rest ∧
      busWrite off size v { s with program := rest } = .ok t) ∨
    (∃ prog notes fails draws, t = { s with program := prog, noted := notes, assertFailed := fails, draws := draws }) := by
  unfold hostMove at h
  split at h
  · cases h; exact .inl rfl
  · rename_i line rest hp
    cases line with
    | write off size v =>
      refine .inr (.inl ⟨off, size, v, rest, hp, ?_⟩)
      simp only [performLine, answerOf] at h
      split at h
      · rename_i ht; cases h; exact ht
      all_goals cases h
    | read off size expect =>
      refine .inr (.inr ?_)
      simp only [performLine, answerOf] at h
      split at h
      · rename_i r hr
        cases h
        obtain ⟨v, u⟩ := r
        rcases busRead_ok hr with hu | ⟨-, hu⟩ <;> subst hu <;>
          simp only [noteValue, checkExpected] <;> split <;> try split
        all_goals exact ⟨_, _, _, _, rfl⟩
      all_goals cases h
    | poll =>
      simp only [performLine, answerOf] at h
      split at h
      · rename_i r hr
        cases h
        obtain ⟨v, u⟩ := r
        simp only [pollStep]
        rcases busRead_ok hr with hu | ⟨-, hu⟩ <;> subst hu <;> split
        · exact .inl rfl
        · exact .inr (.inr ⟨_, _, _, _, rfl⟩)
        · exact .inr (.inr ⟨_, _, _, _, rfl⟩)
        · exact .inr (.inr ⟨_, _, _, _, rfl⟩)
      all_goals cases h

/-- What a step does: the next turn's agent moves, or, with no turn given, the Engine if a command is in flight and else the
Host. -/
theorem step_next {s t : State} (h : step s = .next t) :
    ∃ ts, hostMove { s with turns := ts } = .next t ∨ engineMove { s with turns := ts } = .next t ∨
      t = resetBlock { s with turns := ts } := by
  unfold step at h
  split at h
  · rename_i turn rest _
    refine ⟨rest, ?_⟩
    cases turn with
    | host => exact .inl h
    | engine => exact .inr (.inl h)
    | reset => cases h; exact .inr (.inr rfl)
  · rename_i ht
    refine ⟨s.turns, ?_⟩
    split at h
    · exact .inl h
    · exact .inr (.inl h)

/-- A step that faults is a move of the Host or of the Engine that faults, taken when that agent moves. -/
theorem step_fault {s : State} {f : Fault} (h : step s = .fault f) :
    ∃ ts, s.hostMoves ∧ hostMove { s with turns := ts } = .fault f ∨
      s.engineMoves ∧ engineMove { s with turns := ts } = .fault f := by
  unfold step at h
  split at h
  · rename_i turn rest ht
    cases turn with
    | host => exact ⟨rest, .inl ⟨.inl (by rw [ht]; rfl), h⟩⟩
    | engine => exact ⟨rest, .inr ⟨.inl (by rw [ht]; rfl), h⟩⟩
    | reset => cases h
  · rename_i ht
    split at h
    · rename_i ho; exact ⟨s.turns, .inl ⟨.inr ⟨ht, ho⟩, h⟩⟩
    · rename_i ho; exact ⟨s.turns, .inr ⟨.inr ⟨ht, ho⟩, h⟩⟩

end Sys2Proof.Machine
end

