-- ==== Sys2Proof/Tests/Slice0.lean ====
section
/-! SUPPORT. Tests: the decoder on words written out from spec/30_encoding.md, ill-formed terms, vectors of
spec/95_test_vectors.md as single steps, and a witness for the hypotheses of each statement. -/

namespace Sys2Proof.Machine

/-! ## Ill-formed terms -/

/-- R72: OPC 0x0 to 0x3 with RSV = 0 are the words of R71, so no reserved command carries them. -/
theorem test_ill_formed_reserved : (Instr.reserved 0 0).wellFormed = false ∧ (Instr.reserved 0 1).wellFormed = false ∧
    (Instr.reserved 0 2).wellFormed = false ∧ (Instr.reserved 0 3).wellFormed = false := by decide

theorem test_well_formed_reserved : (Instr.reserved 0 4).wellFormed = true ∧ (Instr.reserved 1 0).wellFormed = true ∧
    (Instr.reserved 0xFFFFFFF 15).wellFormed = true := by decide

/-! ## Decoding, words written bit by bit as RSV (31:4) and OPC (3:0) (R70, R71) -/

theorem test_decode_nop : decode 0b0000000000000000000000000000_0000 = .nop := by decide
theorem test_decode_encode : decode 0b0000000000000000000000000000_0001 = .encode := by decide
theorem test_decode_decode : decode 0b0000000000000000000000000000_0010 = .decode := by decide
theorem test_decode_clear : decode 0b0000000000000000000000000000_0011 = .clear := by decide
/-- R72: 0x00000011 is reserved although its OPC is 0x1; OPC 0x4 is the first reserved one. -/
theorem test_decode_reserved : decode 0b0000000000000000000000000001_0001 = .reserved 1 1 ∧
    decode 0b0000000000000000000000000000_0100 = .reserved 0 4 ∧
    decode 0b1000000000000000000000000000_0001 = .reserved 0x8000000 1 := by decide
theorem test_decode_table : decodeTableWord 32 2 = some .decode ∧ decodeTableWord 32 0x100000002 = none ∧
    decodeBits 40 0x100000002 = .error .notOneWord := by decide
theorem test_encode_reserved : encode (.reserved 0x8000000 1) = 0x80000001 := by decide

/-! ## Small states, with MAX_BYTES = 4 as in spec/95_test_vectors.md -/

/-- After reset with MAX_BYTES = 4, and no turn given. -/
def tiny : State := { State.reset with params := ⟨3, 0, .codepoint⟩, turns := [] }

/-- W1, V55: the four symbols of 0x74. -/
def symbols74 : Memory 32 := [(0, 0x200C), (1, 0x2060), (2, 0x200C), (3, 0x200B)]

/-- V42: the first of two invalid words has index 1. -/
def symbolsBad : Memory 32 :=
  [(0, 0x200B), (1, 0x74), (2, 0x200C), (3, 0x200D), (4, 0x200B), (5, 0xFEFF), (6, 0x200C), (7, 0x200D)]

/-- ENCODE of one byte in flight. -/
def encoding : State := { tiny with byteMem := [(0, 0x74)], op := .encode, opLen := 1, status := statusIssued .encode }

/-- DECODE of the symbols in flight, `n` of them. -/
def decoding (m : Memory 32) (n : Word) : State :=
  { tiny with symMem := m, byteMem := [(0, 0xAA)], op := .decode, opLen := n, status := statusIssued .decode }

/-- After a DECODE that found the invalid word 0x74 at 1 (V62). -/
def failed : State := { tiny with status := statusError .symbol .decode, opLen := 8, errPos := 1, errSym := 0x74 }

/-- The Host has the turn and the line `h`. -/
def withLine (h : HostOp) (s : State) : State := { s with program := [h], turns := [.host] }

/-- A fact about the next state. -/
def nextHas (o : Answer) (p : State → Bool) : Bool :=
  match o with
  | .next t => p t
  | .fault _ => false
  | .refused _ => false

/-- The fault an answer is. -/
def faultOf (o : Answer) : Option Fault :=
  match o with
  | .next _ => none
  | .fault f => some f
  | .refused _ => none

/-! ## Vectors -/

/-- V62. -/
theorem test_nop_keeps_record : nextHas (exec .nop failed) (fun t => decide (t = failed)) = true := by decide

/-- V63. -/
theorem test_clear : nextHas (exec .clear failed) (fun t =>
    decide (statusWord t.status = 0 ∧ t.errPos = 0 ∧ t.errSym = 0)) = true := by decide

/-- V67: CLEAR cannot abort a command. -/
theorem test_clear_while_busy : nextHas (exec .clear encoding) (fun t => decide (statusWord t.status = 0x101)) = true := by
  decide

/-- V64, V65, V66. -/
theorem test_reserved_status : nextHas (commandWrite 0x00000010 failed) (fun t =>
    decide (statusWord t.status = 0x46 ∧ t.errPos = 0)) = true := by decide

/-- V53. -/
theorem test_encode_issue : nextHas (exec .encode { failed with len := 9 }) (fun t =>
    decide (statusWord t.status = 0x101 ∧ t.opLen = 9 ∧ t.errSym = 0)) = true := by decide

/-- R87's example, V52: the cells after the output stay. -/
theorem test_encode_completion : nextHas (step { encoding with symMem := [(3, 0), (4, 0x2060)] }) (fun t =>
    decide (t.symMem = symbols74 ++ [(4, 0x2060)] ∧ t.outLen = 4 ∧ statusWord t.status = 0x102)) = true := by decide

/-- V54's issue. -/
theorem test_decode_issue : nextHas (exec .decode failed) (fun t =>
    decide (statusWord t.status = 0x201 ∧ t.opLen = 0)) = true := by decide

/-- R109's example, V55. -/
theorem test_decode_completion : nextHas (step (decoding symbols74 4)) (fun t =>
    decide (t.byteMem = [(0, 0x74)] ∧ t.outLen = 1 ∧ statusWord t.status = 0x202)) = true := by decide

/-- V36, V24, V25, V28, V5. -/
theorem test_codec_corners : align (agg 3 2) (agg 1 0) = 0xE4 ∧ decLut 0x200E = none ∧ decLut 0x205F = none ∧
    decLut 0x0001200B = none ∧ encodeFn [0x1B] = [0x200B, 0x200C, 0x200D, 0x2060] := by decide

/-- V77, V83: a byte write takes bits 7:0; LEN takes all 32. -/
theorem test_bus_writes : nextHas (step (withLine (.write 0x100000 4 0xFFFFFF41) tiny)) (fun t =>
      decide (t.byteMem = [(0, 0x41)])) = true ∧
    nextHas (step (withLine (.write 0x000004 4 0xDEADBEEF) tiny)) (fun t => decide (t.len = 0xDEADBEEF)) = true := by
  decide

/-- V82, V81, V80: CAP_BYTES and ALPHA3 are noted, and a write to STATUS is ignored. -/
theorem test_bus_registers : nextHas (step (withLine (.read 0x000018 4 (some 4)) tiny)) (fun t =>
      decide (t.noted = [4] ∧ t.assertFailed = false)) = true ∧
    nextHas (step (withLine (.read 0x00002C 4 (some 0)) tiny)) (fun t =>
      decide (t.noted = [0x2060] ∧ t.assertFailed = true)) = true ∧
    nextHas (step (withLine (.write 0x000008 4 0xFFFFFFFF) failed)) (fun t => decide (t.status = failed.status)) = true := by
  decide

/-- V71 to V76, and the boundaries of R51: where BUSERR begins and ends. -/
theorem test_offset_map : [0x000002#23, 0x00001C#23, 0x000030#23, 0x0FFFFC#23, 0x100010#23, 0x1FFFFC#23,
      0x200000#23, 0x3FFFFC#23, 0x400040#23, 0x7FFFFC#23].all (fun off => decide (locate tiny.params off = none)) = true ∧
    locate tiny.params 0x000018 = some (.reg .capBytes) ∧ locate tiny.params 0x00002C = some (.reg (.alpha 3)) ∧
    locate tiny.params 0x10000C = some (.byteCell 3) ∧ locate tiny.params 0x40003C = some (.symCell 15) := by decide

/-- P1's and P5's lines: their text, and their encodings as the listings give them. -/
theorem test_host_lines : assembleLine "W SYM[3], 0x2060 ; a symbol".toList = some [.write 0x40000C 4 0x2060] ∧
    encodeAccess (.write 0x40000C 4 0x2060) = "W 0x40000C 0x00002060".toList ∧
    assembleLine "R OUT_LEN == 16".toList = some [.read 0x00000C 4 (some 16)] ∧
    assembleLine "R @0x00001C".toList = some [.read 0x00001C 4 none] ∧
    assembleLine "RUN_DECODE 8".toList = some [.write 0x000004 4 8, .write 0x000000 4 2, .poll] := by decide

/-! ## Witnesses: states that meet the hypotheses of the statements -/

/-- Idle and busy states: the commands' statements, `BusyIgnoresCommands`, `CommandFrame`. -/
theorem witness_idle_and_busy : failed.status.busy = false ∧ encoding.status.busy = true ∧
    nextHas (exec .encode tiny) (fun _ => true) = true := by decide

/-- `DecodeFnOutcomes`, `DecodeFnClosedForm`, `EncodeFnOfDecodeFn`, `EncodeFnSymbols`, `EncodeFnIsInjective`: each outcome, from
W1, W2, V42 and V43. -/
theorem witness_decodeFn : decodeFn [0x200C, 0x2060, 0x200C, 0x200B] = .ok [0x74] ∧
    decodeFn [0x200B, 0x200C] = .errLength ∧
    decodeFn [0x200B, 0x74, 0x200C, 0x200D, 0x200B, 0xFEFF, 0x200C, 0x200D] = .errSymbol 1 0x74 ∧
    decodeFn [0x200B, 0x200B, 0x200B, 0x0001200B] = .errSymbol 3 0x0001200B ∧
    encodeFn [0x74] = [0x200C, 0x2060, 0x200C, 0x200B] ∧ ([0x74] : List Byte)[0]? = some 0x74 := by decide

/-- `EncodeCompletes`, `EncodeDependsOnlyOnInput`, `EngineFrame`. -/
theorem witness_encode_completes : encoding.op = .encode ∧ ([0x74] : List Byte).length = encoding.opLen.toNat ∧
    ([0x74] : List Byte).length ≤ encoding.maxBytes ∧ encoding.holdsBytes [0x74] ∧
    nextHas (engineMove encoding) (fun _ => true) = true := by
  refine ⟨rfl, rfl, by decide, fun i hi => ?_, by decide⟩
  obtain rfl : i = 0 := by simpa using hi
  rfl

/-- `EncodeFaultsOnUnwritten`, at the capacity itself (V51); `CapacityError` and `EncodeRecordsOnlyCapacity`, one above it
(V49), and for DECODE (V56). -/
theorem witness_encode_limits : faultOf (engineMove { encoding with opLen := 4 }) = some .engUninitInput ∧
    nextHas (engineMove { encoding with opLen := 5 }) (fun t => decide (statusWord t.status = 0x136)) = true ∧
    nextHas (engineMove (decoding symbols74 17)) (fun t => decide (statusWord t.status = 0x236)) = true := by decide

/-- `DecodeRefinesDecodeFn`, `DecodeDependsOnlyOnInput`, `DecodeIsAllOrNothing` (ERR = 0). -/
theorem witness_decode_completes : (decoding symbols74 4).op = .decode ∧
    ([0x200C, 0x2060, 0x200C, 0x200B] : List Word).length = (decoding symbols74 4).opLen.toNat ∧
    ([0x200C, 0x2060, 0x200C, 0x200B] : List Word).length ≤ (decoding symbols74 4).maxSyms ∧
    (decoding symbols74 4).holdsSyms [0x200C, 0x2060, 0x200C, 0x200B] := by
  refine ⟨rfl, rfl, by decide, fun j hj => ?_⟩
  have : ∀ k, k < 4 → (decoding symbols74 4).symMem.read k = ([0x200C, 0x2060, 0x200C, 0x200B] : List Word)[k]? := by decide
  exact this j hj

/-- `LengthError` (V58, nothing written); `SymbolError` and `DecodeIsAllOrNothing` with ERR = 1 (V59, V60: the cells after the
invalid word are unwritten); `DecodeFaultsOnUnwritten` (V61, at capacity). -/
theorem witness_decode_errors : nextHas (engineMove (decoding [] 6)) (fun t => decide (statusWord t.status = 0x216)) = true ∧
    nextHas (engineMove (decoding symbolsBad 8)) (fun t => decide (statusWord t.status = 0x226 ∧ t.errPos = 1 ∧
      t.errSym = 0x74 ∧ t.byteMem = [(0, 0xAA)])) = true ∧
    nextHas (engineMove (decoding [(0, 0x74)] 4)) (fun t => decide (t.errPos = 0)) = true ∧
    faultOf (engineMove (decoding symbols74 16)) = some .engUninitInput := by decide

/-- `EncodeThenDecode` and `DecodeThenEncode`: both commands of each, as P1 and P2 run them. -/
theorem witness_round_trips :
    nextHas (exec .encode { tiny with byteMem := [(0, 0x74)], len := 1 }) (fun s => nextHas (engineMove s) (fun t =>
      nextHas (exec .decode { t with len := 4, byteMem := [] }) (fun u => nextHas (engineMove u) (fun v =>
        decide (v.byteMem = [(0, 0x74)] ∧ v.outLen = 1))))) = true ∧
    nextHas (exec .decode { tiny with symMem := symbols74, len := 4 }) (fun s => nextHas (engineMove s) (fun t =>
      nextHas (exec .encode { t with len := 1, symMem := [] }) (fun u => nextHas (engineMove u) (fun v =>
        decide (v.symMem = symbols74 ∧ v.outLen = 4))))) = true := by decide

/-- `BusErrors`: each of R55's conditions (a) to (d), and the host program's fault (P5). -/
theorem witness_bus_errors : busCheck tiny.params 0x000002 4 = none ∧ busCheck tiny.params 0x000004 2 = none ∧
    busCheck tiny.params 0x00001C 4 = none ∧ busCheck tiny.params 0x100010 4 = none ∧
    faultOf (step (withLine (.read 0x00001C 4 none) tiny)) = some .hostBusErr := by decide

/-- `HostAddressesAndOffsets`: the last address of the span, and the one after it. -/
theorem witness_addresses : offsetAt ⟨3, 2, .codepoint⟩ 0x17FFFFF = some 0x7FFFFF ∧
    offsetAt ⟨3, 2, .codepoint⟩ 0x1800000 = none := by decide

/-- `ByteWindow` and `SymWindow`, at their last cells: written and unwritten cells, idle and in flight (V69, V84). -/
theorem witness_windows : 3 < tiny.maxBytes ∧ 15 < 4 * tiny.maxBytes ∧ tiny.op = .none ∧ encoding.op ≠ .none ∧
    faultOf (step (withLine (.read 0x10000C 4 none) tiny)) = some .hostUninitRead ∧
    faultOf (hostMove (withLine (.write 0x40003C 4 1) encoding)) = some .hostBusyWrite ∧
    nextHas (step (withLine (.read 0x10000C 4 none) { tiny with byteMem := [(3, 0x80)] })) (fun t =>
      decide (t.noted = [0x80])) = true := by decide

/-- `EngineFrame` with nothing in flight; `CompletionIsTaken` with no reset turn to come, and with one. -/
theorem witness_engine_turns : nextHas (engineMove failed) (fun t => decide (t = failed)) = true ∧
    Turn.reset ∉ ({ encoding with turns := [.host, .engine] } : State).turns ∧
    nextHas (step { encoding with turns := [.engine] }) (fun t => decide (t.op = .none ∧ t.status.done = true)) = true ∧
    nextHas (step { encoding with turns := [.reset] }) (fun t => decide (t.op = .none ∧ t.status.done = false)) = true := by
  decide

/-- `StepRunsTheDecodedCommand`, `StepTakesTheNextTurn`, `ResetFromAnyState`, `CompletionIsTaken`. -/
theorem witness_turns : (withLine (.write 0x000000 4 1) tiny).program = [.write 0x000000 4 1] ∧
    (withLine (.write 0x000000 4 1) tiny).turns = [.host] ∧ tiny.turns = [] ∧ tiny.op = .none ∧
    ({ encoding with turns := [.engine] } : State).turns = [.engine] ∧
    ({ encoding with turns := [.reset] } : State).turns = [.reset] ∧ encoding.op ≠ .none := by decide

/-- `StepKeepsInv`: the invariant holds of a state with a command in flight and of one with an error recorded, and both
step. -/
theorem witness_inv : encoding.Inv ∧ failed.Inv ∧ nextHas (step encoding) (fun _ => true) = true ∧
    nextHas (step failed) (fun _ => true) = true := by
  refine ⟨⟨⟨by decide, by decide, by decide, by decide⟩, ⟨by decide, by decide⟩, ⟨by decide, by decide, by decide, by decide⟩,
    ⟨by decide, by decide, by decide, by decide, by decide, by decide, by decide, by decide, by decide⟩⟩,
    ⟨⟨by decide, by decide, by decide, by decide⟩, ⟨by decide, by decide⟩, ⟨by decide, by decide, by decide, by decide⟩,
    ⟨by decide, by decide, by decide, by decide, by decide, by decide, by decide, by decide, by decide⟩⟩, by decide, by decide⟩

/-- `StepKeepsStatusLaws`, `ConstantsNeverChange`, `WrittenCellsStayWritten`, `OnlyTheseWriteLenAndBuffers` and
`FaultsAreThoseNamed`: a state that steps, with no reset turn and a written cell, and one that faults. -/
theorem witness_steps : StatusWordLaw (readReg .status encoding) ∧ nextHas (step encoding) (fun _ => true) = true ∧
    encoding.turns.head? ≠ some .reset ∧ encoding.byteMem.read 0 ≠ none ∧
    faultOf (step { encoding with opLen := 2 }) = some .engUninitInput ∧
    faultOf (step (decoding symbols74 8)) = some .engUninitInput := by
  refine ⟨⟨by decide, by decide, by decide, by decide, by decide, by decide⟩, by decide, by decide, by decide, by decide,
    by decide⟩

/-- `ErrorRecordStays`: an error recorded, and NOP as the next line; and CLEAR as the next line while the Engine has the turn. -/
theorem witness_error_record : failed.status.err = true ∧
    nextHas (step (withLine (.write 0x000000 4 0) failed)) (fun t => decide (t.status = failed.status)) = true ∧
    nextHas (step { withLine (.write 0x000000 4 3) failed with turns := [.engine] }) (fun t =>
      decide (t.status = failed.status)) = true ∧
    ¬ ({ withLine (.write 0x000000 4 3) failed with turns := [.engine] } : State).hostMoves := by
  refine ⟨by decide, by decide, by decide, by simp [State.hostMoves]⟩

/-- `HostReadNotesTheValue` and `PseudoInstructions`: a read of a register, and POLL with BUSY = 1 and with BUSY = 0. -/
theorem witness_host_lines :
    nextHas (hostMove (withLine (.read 0x000014 4 none) failed)) (fun t => decide (t.noted = [0x74])) = true ∧
    nextHas (hostMove (withLine .poll encoding)) (fun t => decide (t.program = [.poll])) = true ∧
    nextHas (hostMove (withLine .poll failed)) (fun t => decide (t.program = [] ∧ t.noted = [0x226])) = true := by decide

/-- `AssembledAccessesAreWords`: a text of two lines. -/
theorem witness_assembled : assemble "W LEN, 4\nENCODE" = some [.write 0x000004 4 4, .write 0x000000 4 1] := by decide

/-- `StepRunsTheDecodedCommand`, second part: the first step after reset with a command placed. -/
theorem witness_fetch : nextHas (step (State.reset.withFetchWord 32 1)) (fun t => decide (t.op = .encode)) = true ∧
    nextHas (step (State.reset.withFetchWord 32 0x10)) (fun t => decide (t.status.cause = .badCmd)) = true := by decide

end Sys2Proof.Machine
end

section
/-! Proofs of the statements of spec/00_scope.md: the Engine's frame, the size of assembled accesses, the block's place among
the host addresses, and which agent a step moves. -/

namespace Sys2Proof.Machine

/-! ## The Engine's frame -/

/-- R87: ENCODE's completion ends the command and changes no more than the result registers and SYM_MEM. -/
theorem completeEncode_frame {s t : State} (h : completeEncode s = .next t) :
    t = { s with status := t.status, outLen := t.outLen, errPos := t.errPos, errSym := t.errSym,
                 symMem := t.symMem, op := .none } := by
  obtain ⟨-, rfl⟩ | ⟨p, -, -, -, rfl⟩ := completeEncode_next h
  · rfl
  · rfl

/-- R109: DECODE's completion ends the command and changes no more than the result registers and BYTE_MEM. -/
theorem completeDecode_frame {s t : State} (h : completeDecode s = .next t) :
    t = { s with status := t.status, outLen := t.outLen, errPos := t.errPos, errSym := t.errSym,
                 byteMem := t.byteMem, op := .none } := by
  obtain ⟨-, rfl⟩ | ⟨-, -, rfl⟩ | ⟨-, -, ⟨j, w, -, rfl⟩ | ⟨cs, -, rfl⟩⟩ := completeDecode_next h
  · rfl
  · rfl
  · rfl
  · rfl

/-- Settles O31, by the frame of the completion that the command in flight takes. -/
theorem engineFrame : Obligations.EngineFrame := by
  intro s t h
  obtain ⟨ho, rfl⟩ | ⟨ho, hc⟩ | ⟨ho, hc⟩ := engineMove_next h
  · exact ⟨fun _ => rfl, by rw [← ho], fun _ _ => rfl, fun _ _ => rfl⟩
  · have hf := completeEncode_frame hc
    have hb : t.byteMem = s.byteMem := by rw [hf]
    exact ⟨fun hn => by simp [ho] at hn, by rw [hb]; exact hf, fun _ i => by rw [hb], fun hne => absurd ho hne⟩
  · have hf := completeDecode_frame hc
    have hm : t.symMem = s.symMem := by rw [hf]
    exact ⟨fun hn => by simp [ho] at hn, by rw [hm]; exact hf, fun hne => absurd ho hne, fun _ j => by rw [hm]⟩

/-! ## The size of assembled accesses -/

/-- R11, R76: the access that a line stands for moves one word. POLL reads STATUS as a word by its own meaning (R78). -/
def HostOp.wordSized (h : HostOp) : Prop :=
  match h with
  | .write _ size _ => size = 4
  | .read _ size _ => size = 4
  | .poll => True

/-- The expansion of a line writes the size 4 in every access. -/
theorem expandLine_wordSized {l : Line} {ops : List HostOp} (h : expandLine l = some ops) : ∀ op ∈ ops, op.wordSized := by
  cases l with
  | write t v =>
    obtain ⟨off, -, rfl⟩ := Option.map_eq_some_iff.mp h
    simp [HostOp.wordSized]
  | read t expect =>
    obtain ⟨off, -, rfl⟩ := Option.map_eq_some_iff.mp h
    simp [HostOp.wordSized]
  | nop | encode | decode | clear | poll | runEncode | runDecode =>
    cases h
    simp [commandLine, HostOp.wordSized]

/-- One line of text stands for no access, or for those of the line that its tokens write. -/
theorem assembleLine_some {cs : List Char} {ops : List HostOp} (h : assembleLine cs = some ops) :
    ops = [] ∨ ∃ l, expandLine l = some ops := by
  unfold assembleLine at h
  split at h
  · exact .inl (Option.some.inj h).symm
  · split at h
    · cases h
    · exact .inr ⟨_, h⟩

/-- Every access of an assembled program belongs to the expansion of one of its lines. -/
theorem mem_assembleLines {ls : List (List Char)} {ops : List HostOp} (h : assembleLines ls = some ops) {op : HostOp}
    (hop : op ∈ ops) : ∃ l as, expandLine l = some as ∧ op ∈ as := by
  induction ls generalizing ops with
  | nil => cases h; cases hop
  | cons cs rest ih =>
    unfold assembleLines at h
    split at h
    · rename_i as bs ha hb
      cases h
      rcases List.mem_append.mp hop with hop | hop
      · obtain rfl | ⟨l, hl⟩ := assembleLine_some ha
        · cases hop
        · exact ⟨l, as, hl, hop⟩
      · exact ih hb hop
    · cases h

/-- Settles O59: an access of the program is one of an expanded line, and those are of 4 bytes. -/
theorem assembledAccessesAreWords : Obligations.AssembledAccessesAreWords := by
  intro text ops h op hop
  obtain ⟨l, as, hl, hmem⟩ := mem_assembleLines h hop
  exact expandLine_wordSized hl op hmem

/-! ## Host addresses -/

/-- R7: ZWC_BASE is aligned to 8 MiB. -/
theorem zwcBase_aligned (p : Params) : p.zwcBase % 0x800000 = 0 := Nat.mul_mod_left _ _

/-- R50: the host address of an offset lies in the span and gives the offset back. -/
theorem offsetAt_hostAddress (p : Params) (off : Offset) : offsetAt p (hostAddress p off) = some off := by
  have hlt : off.toNat < 0x800000 := off.isLt
  simp [offsetAt, hostAddress, hlt]

/-- R50: the offset at a host address of the span gives the address back. -/
theorem hostAddress_of_offsetAt {p : Params} {addr : Nat} {off : Offset} (h : offsetAt p addr = some off) :
    hostAddress p off = addr := by
  unfold offsetAt at h
  split at h
  · cases h
    simp only [hostAddress, BitVec.toNat_ofNat]
    omega
  · cases h

/-- Settles O42: the two translations undo each other. -/
theorem hostAddressesAndOffsets : Obligations.HostAddressesAndOffsets := fun p =>
  ⟨zwcBase_aligned p, offsetAt_hostAddress p, fun _ _ => hostAddress_of_offsetAt⟩

/-! ## Which agent a step moves -/

/-- A given turn is taken, and spent. -/
theorem step_of_turn {s : State} {t : Turn} {ts : List Turn} (h : s.turns = t :: ts) :
    step s = takeTurn t { s with turns := ts } := by
  simp only [step, h]

/-- With no turn left and nothing in flight the Host moves. -/
theorem step_of_idle {s : State} (ht : s.turns = []) (ho : s.op = .none) : step s = hostMove s := by
  simp only [step, ht, if_pos ho]

/-- With no turn left a command in flight completes (R169). -/
theorem step_of_inFlight {s : State} (ht : s.turns = []) (ho : s.op ≠ .none) : step s = engineMove s := by
  simp only [step, ht, if_neg ho]

/-- A program with no line left does nothing (R170). -/
theorem hostMove_of_programEnd {s : State} (h : s.program = []) : hostMove s = .next s := by
  simp only [hostMove, h]

/-- R37: with BUSY = 0 no command is in flight. -/
theorem State.EngineOk.op_none {s : State} (he : s.EngineOk) (hb : s.status.busy = false) : s.op = .none :=
  Decidable.not_not.mp fun ho => by simp [he.busyOp.mpr ho] at hb

/-- Settles O44, by the equations of a step; a run that has ended leaves the Host the move and no line to perform. -/
theorem stepTakesTheNextTurn : Obligations.StepTakesTheNextTurn := fun _ =>
  ⟨fun _ ht => step_of_turn ht, fun _ ht => step_of_turn ht, step_of_inFlight, step_of_idle,
    fun ht he ⟨hp, hb⟩ => (step_of_idle ht (he.op_none hb)).trans (hostMove_of_programEnd hp)⟩

/-! ## The step of a CMD write -/

/-- R51, R130: a word written at offset 0 is a command, in every build. -/
theorem busWrite_cmd (w : Word) (s : State) : busWrite 0x000000 4 w s = replyOf (exec (decode w) s) := rfl

/-- A command's outcome passes the bus unchanged. -/
theorem answerOf_replyOf (o : Answer) : answerOf (replyOf o) (fun t => t) = o := by
  cases o <;> rfl

/-- The Host's move on a CMD write runs the decoded command. -/
theorem hostMove_cmdWrite {s : State} {w : Word} {rest : List HostOp} (h : s.program = .write 0x000000 4 w :: rest) :
    hostMove s = exec (decode w) { s with program := rest } := by
  simp only [hostMove, h, performLine, busWrite_cmd, answerOf_replyOf]

/-- Placing a whole word puts the CMD write of that very word before the program. -/
theorem withFetchWord_program (s : State) (w : Word) :
    (s.withFetchWord 32 w.toNat).program = .write 0x000000 4 w :: s.program := by
  simp only [State.withFetchWord, w.toNat_mod_cancel, BitVec.ofNat_toNat, BitVec.setWidth_eq]

/-- A step that gives the Host the turn for a CMD write spends the line and the turn, and runs the decoded command. -/
theorem step_cmdWrite_of_turn {s : State} {w : Word} {rest : List HostOp} {ts : List Turn}
    (hp : s.program = .write 0x000000 4 w :: rest) (ht : s.turns = .host :: ts) :
    step s = exec (decode w) { s with program := rest, turns := ts } :=
  (step_of_turn ht).trans (hostMove_cmdWrite hp)

/-- Settles O43: the step is the Host's move on a CMD write, and undoes the placement of `withFetchWord`. -/
theorem stepRunsTheDecodedCommand : Obligations.StepRunsTheDecodedCommand :=
  ⟨fun _ _ _ hp => ⟨fun _ ht => step_cmdWrite_of_turn hp ht,
    fun ht ho => (step_of_idle ht ho).trans (hostMove_cmdWrite hp)⟩,
    fun s w => step_cmdWrite_of_turn (withFetchWord_program s w) rfl⟩

end Sys2Proof.Machine
end

section
/-! Proofs of the statements of spec/10_state.md: what one step can do to the block, the invariant of the machine, the laws
of STATUS, the constants, the values after reset, and what changes LEN and the buffers. -/

namespace Sys2Proof.Machine

/-! ## The block beside another Host -/

/-- The block of `s` beside the Host, the turns and the draws of `h`: the fields that are outside the block (R13). -/
def State.withHost (s h : State) : State :=
  { s with program := h.program, noted := h.noted, assertFailed := h.assertFailed, turns := h.turns, draws := h.draws }

section WithHost
variable (s h : State)

@[simp] theorem withHost_params : (s.withHost h).params = s.params := rfl
@[simp] theorem withHost_len : (s.withHost h).len = s.len := rfl
@[simp] theorem withHost_status : (s.withHost h).status = s.status := rfl
@[simp] theorem withHost_outLen : (s.withHost h).outLen = s.outLen := rfl
@[simp] theorem withHost_errPos : (s.withHost h).errPos = s.errPos := rfl
@[simp] theorem withHost_errSym : (s.withHost h).errSym = s.errSym := rfl
@[simp] theorem withHost_byteMem : (s.withHost h).byteMem = s.byteMem := rfl
@[simp] theorem withHost_symMem : (s.withHost h).symMem = s.symMem := rfl
@[simp] theorem withHost_op : (s.withHost h).op = s.op := rfl
@[simp] theorem withHost_opLen : (s.withHost h).opLen = s.opLen := rfl

/-- A command acts on the block alone. -/
theorem commandEffect_withHost (i : Instr) : commandEffect i (s.withHost h) = (commandEffect i s).withHost h := by
  cases i <;> rfl

/-- The symbol scan reads the block alone. -/
@[simp] theorem engScanSyms_withHost (j n : Nat) : engScanSyms (s.withHost h) j n = engScanSyms s j n := by
  induction n generalizing j with
  | zero => rfl
  | succ n ih => simp only [engScanSyms, engReadSym, withHost_symMem, ih]

end WithHost

/-! ## What one step can do to the block -/

/-- What the Host's move on the next line of its program does to the block: nothing, a command (R130), or a write to LEN
(R165) or to a buffer cell (R53, R54). -/
inductive HostEffect (s : State) : State → Prop where
  | stay : HostEffect s s
  | command {w : Word} {rest : List HostOp} (hp : s.program = .write 0x000000 4 w :: rest)
      (hb : s.status.busy = false) : HostEffect s (commandEffect (decode w) s)
  | writeLen {v : Word} {rest : List HostOp} (hp : s.program = .write 0x000004 4 v :: rest) :
      HostEffect s { s with len := v }
  | writeByte {off : Offset} {v : Word} {rest : List HostOp} {i : Nat} (hp : s.program = .write off 4 v :: rest)
      (hl : locate s.params off = some (.byteCell i)) (ho : s.op = .none) :
      HostEffect s { s with byteMem := s.byteMem.write i (v.setWidth 8) }
  | writeSym {off : Offset} {v : Word} {rest : List HostOp} {j : Nat} (hp : s.program = .write off 4 v :: rest)
      (hl : locate s.params off = some (.symCell j)) (ho : s.op = .none) :
      HostEffect s { s with symMem := s.symMem.write j v }

/-- What the Engine's move does to the block: nothing, or one of the ends of the command in flight (R87, R109). -/
inductive EngineEffect (s : State) : State → Prop where
  | stay (ho : s.op = .none) : EngineEffect s s
  | encodeCapacity (ho : s.op = .encode) (hc : s.maxBytes < s.opLen.toNat) :
      EngineEffect s (finishError .capacity 0 0 s)
  | encodeOk {p : List Byte} (ho : s.op = .encode) (hc : s.opLen.toNat ≤ s.maxBytes)
      (hl : p.length = s.opLen.toNat) (hp : s.holdsBytes p) :
      EngineEffect s (finishOk .encode (BitVec.ofNat 32 (4 * s.opLen.toNat)) (engWriteSyms (encodeFn p) s))
  | decodeCapacity (ho : s.op = .decode) (hc : s.maxSyms < s.opLen.toNat) :
      EngineEffect s (finishError .capacity 0 0 s)
  | decodeLength (ho : s.op = .decode) (hc : s.opLen.toNat ≤ s.maxSyms) (hl : s.opLen.toNat % 4 ≠ 0) :
      EngineEffect s (finishError .length 0 0 s)
  | decodeSymbol {j : Nat} {w : Word} (ho : s.op = .decode) (hc : s.opLen.toNat ≤ s.maxSyms)
      (hl : s.opLen.toNat % 4 = 0) (hs : engScanSyms s 0 s.opLen.toNat = .invalid j w) :
      EngineEffect s (finishError .symbol (BitVec.ofNat 32 j) w s)
  | decodeOk {cs : List Crumb} (ho : s.op = .decode) (hc : s.opLen.toNat ≤ s.maxSyms)
      (hl : s.opLen.toNat % 4 = 0) (hs : engScanSyms s 0 s.opLen.toNat = .crumbs cs) :
      EngineEffect s (finishOk .decode (BitVec.ofNat 32 (s.opLen.toNat / 4)) (engWriteBytes (assembleBytes cs) s))

/-- What a step does to the block, with the agent that moves. -/
inductive StepEffect (s : State) : State → Prop where
  | host {b : State} (hm : s.hostMoves) (e : HostEffect s b) : StepEffect s b
  | engine {b : State} (hm : s.engineMoves) (e : EngineEffect s b) : StepEffect s b
  | reset (ht : s.turns.head? = some .reset) : StepEffect s (resetBlock s)

/-- R51: each register is mapped at its one offset. -/
theorem regAt_some {a : Nat} {r : Reg} (h : regAt a = some r) : a = (regOffset r).toNat := by
  unfold regAt at h
  split at h <;> cases h <;> rfl

theorem locate_reg {p : Params} {off : Offset} {r : Reg} (h : locate p off = some (.reg r)) : off = regOffset r := by
  unfold locate at h
  split at h
  · cases h
  split at h
  · obtain ⟨r', hr, hrr⟩ := Option.map_eq_some_iff.mp h
    cases hrr
    exact BitVec.eq_of_toNat_eq (regAt_some hr)
  split at h
  · split at h <;> cases h
  split at h
  · split at h <;> cases h
  · cases h

/-- What a MemWrite that answers OK reaches. -/
theorem busWrite_located {off : Offset} {size : Nat} {v : Word} {s t : State} (h : busWrite off size v s = .ok t) :
    size = 4 ∧ ((∃ r, off = regOffset r ∧ writeReg r v s = .ok t) ∨
      (∃ i, locate s.params off = some (.byteCell i) ∧ s.op = .none ∧
        t = { s with byteMem := s.byteMem.write i (v.setWidth 8) }) ∨
      ∃ j, locate s.params off = some (.symCell j) ∧ s.op = .none ∧ t = { s with symMem := s.symMem.write j v }) := by
  unfold busWrite busCheck at h
  by_cases hsz : size = 4
  · rw [if_pos hsz] at h
    refine ⟨hsz, ?_⟩
    split at h
    · cases h
    · rename_i r hl
      exact .inl ⟨r, locate_reg hl, h⟩
    · rename_i i hl
      unfold writeCell at h
      split at h
      · cases h
      · rename_i ho
        cases h
        exact .inr (.inl ⟨i, hl, Decidable.not_not.mp ho, rfl⟩)
    · rename_i j hl
      unfold writeCell at h
      split at h
      · cases h
      · rename_i ho
        cases h
        exact .inr (.inr ⟨j, hl, Decidable.not_not.mp ho, rfl⟩)
  · rw [if_neg hsz] at h
    cases h

/-- A CMD write that answers OK is ignored while BUSY and performs the decoded command otherwise. -/
theorem writeReg_cmd_ok {v : Word} {s t : State} (h : writeReg .cmd v s = .ok t) :
    t = s ∨ s.status.busy = false ∧ t = commandEffect (decode v) s := by
  simp only [writeReg, commandWrite, exec_eq, replyOf] at h
  split at h
  · cases h; exact .inl rfl
  · rename_i hb; cases h; exact .inr ⟨by simpa using hb, rfl⟩

/-- The Host's write line acts on the block as `HostEffect` says. -/
theorem busWrite_effect {off : Offset} {size : Nat} {v : Word} {rest : List HostOp} {s h t : State}
    (hp : s.program = .write off size v :: rest) (hw : busWrite off size v (s.withHost h) = .ok t) :
    ∃ b, HostEffect s b ∧ t = b.withHost h := by
  obtain ⟨rfl, ⟨r, rfl, hr⟩ | ⟨i, hl, ho, rfl⟩ | ⟨j, hl, ho, rfl⟩⟩ := busWrite_located hw
  · cases r with
    | cmd =>
      obtain rfl | ⟨hb, rfl⟩ := writeReg_cmd_ok hr
      · exact ⟨s, .stay, rfl⟩
      · exact ⟨_, .command hp hb, commandEffect_withHost s h _⟩
    | len => cases hr; exact ⟨_, .writeLen hp, rfl⟩
    | status | outLen | errPos | errSym | capBytes | alpha => cases hr; exact ⟨s, .stay, rfl⟩
  · exact ⟨_, .writeByte hp hl ho, rfl⟩
  · exact ⟨_, .writeSym hp hl ho, rfl⟩

theorem hostMove_effect {s t : State} {ts : List Turn} (hm : hostMove { s with turns := ts } = .next t) :
    ∃ b h, HostEffect s b ∧ t = b.withHost h := by
  obtain rfl | ⟨off, size, v, rest, hp, hw⟩ | ⟨prog, notes, fails, draws, rfl⟩ := hostMove_next hm
  · exact ⟨s, { s with turns := ts }, .stay, rfl⟩
  · obtain ⟨b, hb, ht⟩ := busWrite_effect (s := s) (h := { s with program := rest, turns := ts }) hp hw
    exact ⟨b, _, hb, ht⟩
  · exact ⟨s, { s with program := prog, noted := notes, assertFailed := fails, turns := ts, draws := draws }, .stay, rfl⟩

theorem engineMove_effect {s h t : State} (hm : engineMove (s.withHost h) = .next t) :
    ∃ b, EngineEffect s b ∧ t = b.withHost h := by
  obtain ⟨ho, rfl⟩ | ⟨ho, hc⟩ | ⟨ho, hc⟩ := engineMove_next hm
  · exact ⟨s, .stay ho, rfl⟩
  · obtain ⟨hcap, rfl⟩ | ⟨p, hl, hcap, hp, rfl⟩ := completeEncode_next hc
    · exact ⟨_, .encodeCapacity ho hcap, rfl⟩
    · exact ⟨_, .encodeOk ho hcap hl hp, rfl⟩
  · obtain ⟨hcap, rfl⟩ | ⟨hcap, hl, rfl⟩ | ⟨hcap, hl, ⟨j, w, hs, rfl⟩ | ⟨cs, hs, rfl⟩⟩ := completeDecode_next hc
    · exact ⟨_, .decodeCapacity ho hcap, rfl⟩
    · exact ⟨_, .decodeLength ho hcap hl, rfl⟩
    · exact ⟨_, .decodeSymbol ho hcap hl (by simpa using hs), rfl⟩
    · exact ⟨_, .decodeOk ho hcap hl (by simpa using hs), rfl⟩

/-- The agent that a step moves, and its move. -/
theorem step_next_agent {s t : State} (h : step s = .next t) :
    ∃ ts, s.hostMoves ∧ hostMove { s with turns := ts } = .next t ∨
      s.engineMoves ∧ engineMove { s with turns := ts } = .next t ∨
      s.turns.head? = some .reset ∧ t = resetBlock { s with turns := ts } := by
  unfold step at h
  split at h
  · rename_i turn rest ht
    refine ⟨rest, ?_⟩
    cases turn with
    | host => exact .inl ⟨.inl (by rw [ht]; rfl), h⟩
    | engine => exact .inr (.inl ⟨.inl (by rw [ht]; rfl), h⟩)
    | reset => cases h; exact .inr (.inr ⟨by rw [ht]; rfl, rfl⟩)
  · rename_i ht
    refine ⟨s.turns, ?_⟩
    split at h
    · rename_i ho; exact .inl ⟨.inr ⟨ht, ho⟩, h⟩
    · rename_i ho; exact .inr (.inl ⟨.inr ⟨ht, ho⟩, h⟩)

/-- Every step is one of the effects on the block, beside some Host. -/
theorem step_effect {s t : State} (h : step s = .next t) : ∃ b h', StepEffect s b ∧ t = b.withHost h' := by
  obtain ⟨ts, ⟨ha, hm⟩ | ⟨ha, hm⟩ | ⟨ha, rfl⟩⟩ := step_next_agent h
  · obtain ⟨b, h', e, ht⟩ := hostMove_effect hm
    exact ⟨b, h', .host ha e, ht⟩
  · obtain ⟨b, e, ht⟩ := engineMove_effect (s := s) (h := { s with turns := ts }) hm
    exact ⟨b, _, .engine ha e, ht⟩
  · exact ⟨_, { s with turns := ts }, .reset ha, rfl⟩

/-! ## The frame of a command -/

section CommandEffect
variable (i : Instr) (s : State)

@[simp] theorem commandEffect_params : (commandEffect i s).params = s.params := by cases i <;> rfl
@[simp] theorem commandEffect_len : (commandEffect i s).len = s.len := by cases i <;> rfl
@[simp] theorem commandEffect_byteMem : (commandEffect i s).byteMem = s.byteMem := by cases i <;> rfl
@[simp] theorem commandEffect_symMem : (commandEffect i s).symMem = s.symMem := by cases i <;> rfl

end CommandEffect

/-! ## The constants -/

theorem StepEffect.params_eq {s b : State} (e : StepEffect s b) : b.params = s.params := by
  cases e with
  | host _ e => cases e <;> simp
  | engine _ e => cases e <;> simp
  | reset => rfl

/-- R23, R102: DEC_LUT undoes ENC_SYM, so that ENC_SYM tells the crumbs apart. -/
theorem alphabetLaw : AlphabetLaw where
  distinct c d h := by simpa using congrArg decLut h
  forth := decLut_encSym
  back _ _ := encSym_of_decLut

/-- Settles O50: the registers of constants read the parameters and the alphabet, and no effect of a step changes the
parameters. -/
theorem constantsNeverChange : Obligations.ConstantsNeverChange := by
  refine ⟨alphabetLaw, fun s t h => ?_⟩
  obtain ⟨b, h', e, rfl⟩ := step_effect h
  have hp : (b.withHost h').params = s.params := e.params_eq
  exact ⟨hp, by rw [readReg, State.maxBytes, State.maxBytes, hp], fun _ => rfl⟩

/-- Settles O8, by evaluation of the four entries. -/
theorem encSymTable : Obligations.EncSymTable := by
  unfold Obligations.EncSymTable
  decide

/-! ## What changes LEN and the buffers -/

/-- Settles O56, by the effects of the Host's and the Engine's move. -/
theorem onlyTheseWriteLenAndBuffers : Obligations.OnlyTheseWriteLenAndBuffers := by
  intro s t h hr
  obtain ⟨b, h', e, rfl⟩ := step_effect h
  cases e with
  | host _ e =>
    cases e with
    | stay => exact ⟨.inl rfl, .inl rfl, .inl rfl⟩
    | command => exact ⟨.inl (by simp), .inl (by simp), .inl (by simp)⟩
    | writeLen hp => exact ⟨.inr ⟨_, _, hp, rfl⟩, .inl rfl, .inl rfl⟩
    | writeByte hp hl ho => exact ⟨.inl rfl, .inr (.inr ⟨_, _, _, _, ho, hp, hl, rfl⟩), .inl rfl⟩
    | writeSym hp hl ho => exact ⟨.inl rfl, .inl rfl, .inr (.inr ⟨_, _, _, _, ho, hp, hl, rfl⟩)⟩
  | engine _ e =>
    cases e with
    | encodeOk ho => exact ⟨.inl rfl, .inl rfl, .inr (.inl ⟨ho, rfl, rfl⟩)⟩
    | decodeOk ho => exact ⟨.inl rfl, .inr (.inl ⟨ho, rfl, rfl⟩), .inl rfl⟩
    | stay | encodeCapacity | decodeCapacity | decodeLength | decodeSymbol => exact ⟨.inl rfl, .inl rfl, .inl rfl⟩
  | reset ht => exact absurd ht hr

/-! ## Written cells -/

theorem Memory.write_keeps_written {w : Nat} {m : Memory w} {b : Nat} (h : m.read b ≠ none) (a : Nat) (v : BitVec w) :
    (m.write a v).read b ≠ none := by
  rw [Memory.read_write]
  split
  · simp
  · exact h

theorem Memory.writeFrom_keeps_written {w : Nat} {m : Memory w} {b : Nat} (h : m.read b ≠ none) (a : Nat)
    (vs : List (BitVec w)) : (m.writeFrom a vs).read b ≠ none := by
  induction vs generalizing m a with
  | nil => exact h
  | cons v rest ih => exact ih (Memory.write_keeps_written h a v) (a + 1)

/-- Settles O54: outside reset a buffer changes by writes alone. -/
theorem writtenCellsStayWritten : Obligations.WrittenCellsStayWritten := by
  intro s t h hr
  obtain ⟨b, h', e, rfl⟩ := step_effect h
  cases e with
  | host _ e =>
    cases e with
    | command => simp
    | writeByte => exact ⟨fun _ hi => Memory.write_keeps_written hi _ _, fun _ hj => hj⟩
    | writeSym => exact ⟨fun _ hi => hi, fun _ hj => Memory.write_keeps_written hj _ _⟩
    | stay | writeLen => exact ⟨fun _ hi => hi, fun _ hj => hj⟩
  | engine _ e =>
    cases e with
    | encodeOk => exact ⟨fun _ hi => hi, fun _ hj => Memory.writeFrom_keeps_written hj _ _⟩
    | decodeOk => exact ⟨fun _ hi => Memory.writeFrom_keeps_written hi _ _, fun _ hj => hj⟩
    | stay | encodeCapacity | decodeCapacity | decodeLength | decodeSymbol => exact ⟨fun _ hi => hi, fun _ hj => hj⟩
  | reset ht => exact absurd ht hr

/-! ## The laws of STATUS -/

theorem statusIdle_ok : statusIdle.Ok := ⟨by simp, by simp, by simp, by simp⟩

theorem statusIssued_ok (o : Op) : (statusIssued o).Ok := ⟨by simp, by simp, by simp, by simp⟩

theorem statusOk_ok (o : Op) : (statusOk o).Ok := ⟨by simp, by simp, by simp, by simp⟩

theorem statusError_ok {c : Cause} (hc : c ≠ .none) (o : Op) : (statusError c o).Ok :=
  ⟨by simp, by simp [hc], by simp, by simp⟩

theorem commandEffect_statusOk {s : State} (hs : s.status.Ok) (i : Instr) : (commandEffect i s).status.Ok := by
  cases i with
  | nop => exact hs
  | encode | decode => exact statusIssued_ok _
  | clear => exact statusIdle_ok
  | reserved => exact statusError_ok (by simp) _

theorem StepEffect.statusOk {s b : State} (e : StepEffect s b) (hs : s.status.Ok) : b.status.Ok := by
  cases e with
  | host _ e =>
    cases e with
    | command => exact commandEffect_statusOk hs _
    | stay | writeLen | writeByte | writeSym => exact hs
  | engine _ e =>
    cases e with
    | stay => exact hs
    | encodeOk | decodeOk => exact statusOk_ok _
    | encodeCapacity | decodeCapacity | decodeLength | decodeSymbol => exact statusError_ok (by simp) _
  | reset => exact statusIdle_ok

/-- R27: the fields of the word, for every value of the two codes. -/
theorem statusWord_fields (st : Status) :
    (statusWord st).getLsbD 0 = st.busy ∧ (statusWord st).getLsbD 1 = st.done ∧ (statusWord st).getLsbD 2 = st.err ∧
    (statusWord st).extractLsb' 4 3 = causeCode st.cause ∧ (statusWord st).extractLsb' 8 2 = lastOpCode st.lastOp ∧
    (statusWord st).getLsbD 3 = false ∧ (statusWord st).getLsbD 7 = false ∧
    (statusWord st).extractLsb' 10 22 = 0#22 := by
  obtain ⟨busy, done, err, cause, lastOp⟩ := st
  simp only [statusWord]
  generalize causeCode cause = c
  generalize lastOpCode lastOp = o
  revert busy done err c o
  decide

theorem causeCode_eq_zero {c : Cause} : causeCode c = 0#3 ↔ c = .none := by cases c <;> decide

theorem causeCode_error {c : Cause} : causeCode c ∈ [1#3, 2#3, 3#3, 4#3] ↔ c ≠ .none := by cases c <;> decide

theorem causeCode_not_reserved (c : Cause) : causeCode c ∉ [5#3, 6#3, 7#3] := by cases c <;> decide

theorem lastOpCode_not_reserved (o : Op) : lastOpCode o ≠ 3#2 := by cases o <;> decide

/-- R28 on the word the host reads is R28 on the fields. -/
theorem statusWordLaw_iff (st : Status) : StatusWordLaw (statusWord st) ↔ st.Ok := by
  obtain ⟨hb, hd, he, hc, ho, hreserved⟩ := statusWord_fields st
  constructor
  · rintro ⟨-, busyClear, errCause, okCause, idleClear, -⟩
    simp only [hb, hd, he, hc, causeCode_eq_zero, causeCode_error] at busyClear errCause okCause idleClear
    exact ⟨busyClear, errCause, okCause, idleClear⟩
  · rintro ⟨busyClear, errCause, okCause, idleClear⟩
    refine ⟨hreserved, ?_, ?_, ?_, ?_, ?_⟩ <;> simp only [hb, hd, he, hc, ho, causeCode_eq_zero, causeCode_error]
    · exact busyClear
    · exact errCause
    · exact okCause
    · exact idleClear
    · exact ⟨causeCode_not_reserved _, lastOpCode_not_reserved _⟩

/-- Settles O49: the laws of the word are those of the fields, and every effect of a step keeps these. -/
theorem stepKeepsStatusLaws : Obligations.StepKeepsStatusLaws := by
  refine ⟨(statusWordLaw_iff _).mpr statusIdle_ok, fun s t hs h => ?_⟩
  obtain ⟨b, h', e, rfl⟩ := step_effect h
  exact (statusWordLaw_iff _).mpr (e.statusOk ((statusWordLaw_iff _).mp hs))

/-! ## The invariant: what each part depends on -/

section Congr
variable {s t : State}

theorem State.BuffersOk.congr (hs : s.BuffersOk) (hp : t.params = s.params) (hb : t.byteMem = s.byteMem)
    (hm : t.symMem = s.symMem) : t.BuffersOk := by
  cases s; cases t
  cases hp; cases hb; cases hm
  exact ⟨hs.byteWf, hs.symWf, hs.byteRange, hs.symRange⟩

theorem State.EngineOk.congr (hs : s.EngineOk) (hst : t.status = s.status) (ho : t.op = s.op) : t.EngineOk := by
  cases s; cases t
  cases hst; cases ho
  exact ⟨hs.busyOp, hs.lastOp⟩

theorem State.ResultOk.congr (hs : s.ResultOk) (hp : t.params = s.params) (hst : t.status = s.status)
    (ho : t.outLen = s.outLen) (hpos : t.errPos = s.errPos) (hsym : t.errSym = s.errSym) (hl : t.opLen = s.opLen) :
    t.ResultOk := by
  cases s; cases t
  cases hp; cases hst; cases ho; cases hpos; cases hsym; cases hl
  exact ⟨hs.outLenZero, hs.encodeOk, hs.decodeOk, hs.okOp, hs.noErrorInfo, hs.symbolInfo, hs.lengthInfo, hs.capInfo,
    hs.badCmdInfo⟩

/-- No part of the invariant speaks of the Host. -/
theorem State.Inv.withHost (hs : s.Inv) (h : State) : (s.withHost h).Inv :=
  ⟨hs.buffers.congr rfl rfl rfl, hs.engine.congr rfl rfl, hs.status, hs.result.congr rfl rfl rfl rfl rfl rfl⟩

end Congr

/-! ## The invariant: the buffers -/

theorem Memory.write_inRange {w n : Nat} {m : Memory w} (h : ∀ c ∈ m, c.1 < n) {a : Nat} (ha : a < n) (v : BitVec w) :
    ∀ c ∈ m.write a v, c.1 < n := by
  intro c hc
  obtain rfl | hc := Memory.mem_write hc
  · exact ha
  · exact h c hc

theorem Memory.writeFrom_inRange {w n : Nat} {m : Memory w} (h : ∀ c ∈ m, c.1 < n) {vs : List (BitVec w)}
    (hn : vs.length ≤ n) : ∀ c ∈ m.writeFrom 0 vs, c.1 < n := by
  intro c hc
  obtain ⟨-, hlt⟩ | hc := Memory.mem_writeFrom hc
  · omega
  · exact h c hc

theorem encodeFn_length (p : List Byte) : (encodeFn p).length = 4 * p.length := by
  induction p with
  | nil => rfl
  | cons b p ih => simp only [encodeFn_cons, List.length_append, encodeByte_length, ih, List.length_cons]; omega

theorem maxSyms_eq (s : State) : s.maxSyms = 4 * s.maxBytes := rfl

/-- R7: MAX_BYTES is at most 2^18, so that MAX_SYMS fits in a word. -/
theorem maxBytes_le (s : State) : s.maxBytes ≤ 262144 := s.params.topByte.isLt

theorem HostEffect.buffersOk {s b : State} (e : HostEffect s b) (hs : s.BuffersOk) : b.BuffersOk := by
  cases e with
  | stay => exact hs
  | command => exact hs.congr (by simp) (by simp) (by simp)
  | writeLen => exact hs.congr rfl rfl rfl
  | writeByte _ hl =>
    exact ⟨Memory.write_wf hs.byteWf _ _, hs.symWf, Memory.write_inRange hs.byteRange (locate_byteCell hl) _, hs.symRange⟩
  | writeSym _ hl =>
    exact ⟨hs.byteWf, Memory.write_wf hs.symWf _ _, hs.byteRange, Memory.write_inRange hs.symRange (locate_symCell hl) _⟩

theorem EngineEffect.buffersOk {s b : State} (e : EngineEffect s b) (hs : s.BuffersOk) : b.BuffersOk := by
  cases e with
  | @encodeOk p _ hc hl _ =>
    have hlen : (encodeFn p).length ≤ s.maxSyms := by rw [encodeFn_length, hl, maxSyms_eq]; omega
    exact ⟨hs.byteWf, engWriteSyms_wf hs.symWf _, hs.byteRange, Memory.writeFrom_inRange hs.symRange hlen⟩
  | @decodeOk cs _ hc _ hscan =>
    obtain ⟨hcs, -⟩ := engScanSyms_crumbs hscan
    have hlen : (assembleBytes cs).length ≤ s.maxBytes := by
      rw [assembleBytes_length, hcs]; rw [maxSyms_eq] at hc; omega
    exact ⟨engWriteBytes_wf hs.byteWf _, hs.symWf, Memory.writeFrom_inRange hs.byteRange hlen, hs.symRange⟩
  | stay | encodeCapacity | decodeCapacity | decodeLength | decodeSymbol => exact hs.congr rfl rfl rfl

/-! ## The invariant: the Engine -/

/-- R37: with BUSY = 0 and nothing in flight the two agree. -/
theorem engineOk_of_idle {s : State} (hb : s.status.busy = false) (ho : s.op = .none) : s.EngineOk :=
  ⟨by simp [hb, ho], by simp [hb]⟩

/-- R135: an issued command is the one in flight, and LAST_OP names it. -/
theorem issue_engineOk {o : Op} (ho : o ≠ .none) (s : State) : (issue o s).EngineOk := ⟨by simp [ho], by simp⟩

theorem commandEffect_engineOk {s : State} (hs : s.EngineOk) (hb : s.status.busy = false) (i : Instr) :
    (commandEffect i s).EngineOk := by
  have ho := hs.op_none hb
  cases i with
  | nop => exact hs
  | encode | decode => exact issue_engineOk (by simp) s
  | clear | reserved => exact engineOk_of_idle rfl ho

theorem HostEffect.engineOk {s b : State} (e : HostEffect s b) (hs : s.EngineOk) : b.EngineOk := by
  cases e with
  | command _ hb => exact commandEffect_engineOk hs hb _
  | stay | writeLen | writeByte | writeSym => exact hs.congr rfl rfl

theorem EngineEffect.engineOk {s b : State} (e : EngineEffect s b) (hs : s.EngineOk) : b.EngineOk := by
  cases e with
  | stay => exact hs
  | encodeCapacity | encodeOk | decodeCapacity | decodeLength | decodeSymbol | decodeOk =>
    exact engineOk_of_idle rfl rfl

/-! ## The invariant: the result registers -/

section Result
variable {s : State}

/-- Issue, CLEAR and reset leave no result (R132, R135, R160). -/
theorem resultOk_of_cleared (hd : s.status.done = false) (hc : s.status.cause = .none) (ho : s.outLen = 0)
    (hp : s.errPos = 0) (hy : s.errSym = 0) : s.ResultOk where
  outLenZero _ := ho
  encodeOk := by simp [hd]
  decodeOk := by simp [hd]
  okOp := by simp [hd]
  noErrorInfo _ := ⟨hp, hy⟩
  symbolInfo := by simp [hc]
  lengthInfo := by simp [hc]
  capInfo := by simp [hc]
  badCmdInfo := by simp [hc]

/-- R147: an error leaves OUT_LEN = 0, and what remains to say is the law of its cause. -/
theorem resultOk_of_error (he : s.status.err = true) (ho : s.outLen = 0)
    (hinfo : s.status.cause ≠ .symbol → s.errPos = 0 ∧ s.errSym = 0)
    (hsymbol : s.status.cause = .symbol → s.status.lastOp = .decode ∧ s.opLen.toNat ≤ s.maxSyms ∧
      s.opLen.toNat % 4 = 0 ∧ s.errPos.toNat < s.opLen.toNat ∧ decLut s.errSym = none)
    (hlength : s.status.cause = .length → s.status.lastOp = .decode ∧ s.opLen.toNat ≤ s.maxSyms ∧
      s.opLen.toNat % 4 ≠ 0)
    (hcap : s.status.cause = .capacity → s.status.lastOp = .encode ∧ s.maxBytes < s.opLen.toNat ∨
      s.status.lastOp = .decode ∧ s.maxSyms < s.opLen.toNat)
    (hbad : s.status.cause = .badCmd → s.status.lastOp = .none) : s.ResultOk where
  outLenZero _ := ho
  encodeOk := by simp [he]
  decodeOk := by simp [he]
  okOp := by simp [he]
  noErrorInfo := hinfo
  symbolInfo := hsymbol
  lengthInfo := hlength
  capInfo := hcap
  badCmdInfo := hbad

/-- R133: a reserved word leaves BADCMD with LAST_OP = NONE. -/
theorem recordBadCmd_resultOk (s : State) : (recordBadCmd s).ResultOk :=
  resultOk_of_error rfl rfl (fun _ => ⟨rfl, rfl⟩) (by simp) (by simp) (by simp) (fun _ => rfl)

/-- R144: CAPACITY stands for an operand above the buffer's size. -/
theorem finishError_capacity_resultOk (h : s.status.lastOp = .encode ∧ s.maxBytes < s.opLen.toNat ∨
    s.status.lastOp = .decode ∧ s.maxSyms < s.opLen.toNat) : (finishError .capacity 0 0 s).ResultOk :=
  resultOk_of_error rfl rfl (fun _ => ⟨rfl, rfl⟩) (by simp) (by simp) (fun _ => h) (by simp)

/-- R142: LENGTH stands for an operand within capacity that is no multiple of 4. -/
theorem finishError_length_resultOk (hop : s.status.lastOp = .decode) (hc : s.opLen.toNat ≤ s.maxSyms)
    (hl : s.opLen.toNat % 4 ≠ 0) : (finishError .length 0 0 s).ResultOk :=
  resultOk_of_error rfl rfl (fun _ => ⟨rfl, rfl⟩) (by simp) (fun _ => ⟨hop, hc, hl⟩) (by simp) (by simp)

/-- R143: SYMBOL stands for an invalid word at an index below the operand. -/
theorem finishError_symbol_resultOk {j w : Word} (hop : s.status.lastOp = .decode) (hc : s.opLen.toNat ≤ s.maxSyms)
    (hl : s.opLen.toNat % 4 = 0) (hj : j.toNat < s.opLen.toNat) (hw : decLut w = none) :
    (finishError .symbol j w s).ResultOk :=
  resultOk_of_error rfl rfl (by simp) (fun _ => ⟨hop, hc, hl, hj, hw⟩) (by simp) (by simp) (by simp)

/-- R87, R109: a command that ends without error finds ERR_POS and ERR_SYM as issue set them. -/
theorem finishOk_resultOk {o : Op} {n : Word} (ho : o ≠ .none) (hp : s.errPos = 0) (hy : s.errSym = 0)
    (he : o = .encode → s.opLen.toNat ≤ s.maxBytes ∧ n.toNat = 4 * s.opLen.toNat)
    (hd : o = .decode → s.opLen.toNat ≤ s.maxSyms ∧ 4 * n.toNat = s.opLen.toNat) : (finishOk o n s).ResultOk where
  outLenZero := by simp
  encodeOk _ _ := he
  decodeOk _ _ := hd
  okOp _ _ := ho
  noErrorInfo _ := ⟨hp, hy⟩
  symbolInfo := by simp
  lengthInfo := by simp
  capInfo := by simp
  badCmdInfo := by simp

end Result

theorem commandEffect_resultOk {s : State} (hs : s.ResultOk) (i : Instr) : (commandEffect i s).ResultOk := by
  cases i with
  | nop => exact hs
  | encode | decode | clear => exact resultOk_of_cleared rfl rfl rfl rfl rfl
  | reserved => exact recordBadCmd_resultOk s

theorem HostEffect.resultOk {s b : State} (e : HostEffect s b) (hs : s.ResultOk) : b.ResultOk := by
  cases e with
  | command => exact commandEffect_resultOk hs _
  | stay | writeLen | writeByte | writeSym => exact hs.congr rfl rfl rfl rfl rfl rfl

/-- R37, R135: while a command is in flight LAST_OP names it. -/
theorem State.Inv.lastOp_inFlight {s : State} {o : Op} (hs : s.Inv) (ho : s.op = o) (hne : o ≠ .none) :
    s.status.lastOp = o :=
  (hs.engine.lastOp (hs.engine.busyOp.mpr (ho ▸ hne))).trans ho

/-- R28 (a), R30, R31: while a command is in flight no error is recorded, so that ERR_POS and ERR_SYM are 0. -/
theorem State.Inv.errRegs_inFlight {s : State} (hs : s.Inv) (ho : s.op ≠ .none) : s.errPos = 0 ∧ s.errSym = 0 := by
  obtain ⟨-, -, hcause⟩ := hs.status.busyClear (hs.engine.busyOp.mpr ho)
  exact hs.result.noErrorInfo (by simp [hcause])

/-- The completions keep the law of the result registers, which needs the other parts of the invariant: LAST_OP, ERR_POS and
ERR_SYM stand as issue set them. -/
theorem EngineEffect.resultOk {s b : State} (e : EngineEffect s b) (hs : s.Inv) : b.ResultOk := by
  have hmax := maxBytes_le s
  have hsyms := maxSyms_eq s
  cases e with
  | stay => exact hs.result
  | encodeCapacity ho hc =>
    have hlast := hs.lastOp_inFlight ho (by simp)
    exact finishError_capacity_resultOk (.inl ⟨hlast, hc⟩)
  | encodeOk ho hc =>
    obtain ⟨hp, hy⟩ := hs.errRegs_inFlight (by simp [ho])
    have hn : (BitVec.ofNat 32 (4 * s.opLen.toNat)).toNat = 4 * s.opLen.toNat := by
      rw [BitVec.toNat_ofNat]; omega
    exact finishOk_resultOk (by simp) hp hy (fun _ => ⟨hc, hn⟩) (by simp)
  | decodeCapacity ho hc =>
    have hlast := hs.lastOp_inFlight ho (by simp)
    exact finishError_capacity_resultOk (.inr ⟨hlast, hc⟩)
  | decodeLength ho hc hl =>
    have hlast := hs.lastOp_inFlight ho (by simp)
    exact finishError_length_resultOk hlast hc hl
  | @decodeSymbol j w ho hc hl hscan =>
    have hlast := hs.lastOp_inFlight ho (by simp)
    obtain ⟨-, hj, -, hw, -⟩ := engScanSyms_invalid hscan
    have hpos : (BitVec.ofNat 32 j).toNat < s.opLen.toNat := by
      rw [BitVec.toNat_ofNat]; omega
    exact finishError_symbol_resultOk hlast hc hl hpos hw
  | decodeOk ho hc hl =>
    obtain ⟨hp, hy⟩ := hs.errRegs_inFlight (by simp [ho])
    have hn : 4 * (BitVec.ofNat 32 (s.opLen.toNat / 4)).toNat = s.opLen.toNat := by
      rw [BitVec.toNat_ofNat]; omega
    exact finishOk_resultOk (by simp) hp hy (by simp) (fun _ => ⟨hc, hn⟩)

/-! ## The invariant of the machine -/

/-- The reset event ends in the invariant from every state (R160). -/
theorem resetBlock_inv (s : State) : (resetBlock s).Inv where
  buffers := ⟨List.Pairwise.nil, List.Pairwise.nil, by simp, by simp⟩
  engine := engineOk_of_idle rfl rfl
  status := statusIdle_ok
  result := resultOk_of_cleared rfl rfl rfl rfl rfl

theorem StepEffect.inv {s b : State} (e : StepEffect s b) (hs : s.Inv) : b.Inv := by
  have hst : b.status.Ok := e.statusOk hs.status
  cases e with
  | host _ e => exact ⟨e.buffersOk hs.buffers, e.engineOk hs.engine, hst, e.resultOk hs.result⟩
  | engine _ e => exact ⟨e.buffersOk hs.buffers, e.engineOk hs.engine, hst, e.resultOk hs⟩
  | reset => exact resetBlock_inv s

/-- Settles O47: each effect of a step keeps each part of the invariant. -/
theorem stepKeepsInv : Obligations.StepKeepsInv := by
  intro s t hs h
  obtain ⟨b, h', e, rfl⟩ := step_effect h
  exact (e.inv hs).withHost h'

/-! ## The state after reset -/

/-- R38, R39, R160: the reset event finds nothing to change right after reset. -/
theorem resetBlock_reset : resetBlock State.reset = State.reset := rfl

/-- Settles O48: the state after reset is one that the reset event leaves. -/
theorem resetMeetsInv : Obligations.ResetMeetsInv := by
  rw [Obligations.ResetMeetsInv, ← resetBlock_reset]
  exact resetBlock_inv State.reset

/-- R38: STATUS reads 0 after reset. -/
theorem statusWord_idle : statusWord statusIdle = 0x00000000 := by decide

/-- Settles O46, by evaluation of the registers of a state that the reset event leaves. -/
theorem resetValues : Obligations.ResetValues := by
  intro s t ht
  obtain ⟨u, rfl⟩ : ∃ u, t = resetBlock u := by
    obtain rfl | rfl := ht
    · exact ⟨State.reset, resetBlock_reset.symm⟩
    · exact ⟨s, rfl⟩
  exact ⟨rfl, rfl, statusWord_idle, rfl, rfl, rfl, rfl, rfl, rfl, rfl, rfl, fun _ => rfl, fun _ => rfl, rfl, rfl⟩

end Sys2Proof.Machine
end

section
/-! Proofs of the statements of spec/20_memory.md: ENCODE_FN's symbols, the faults of the completions, the offset map and
its BUSERR, the registers, the two buffer windows, and which line of its program the Host performs. -/

namespace Sys2Proof.Machine

/-! ## The symbols of ENCODE_FN -/

/-- R81: CRUMB(b, k) is the bits 7-2k to 6-2k of the byte. -/
theorem crumb_eq_extractLsb' (b : Byte) (k : Fin 4) : crumb b k = b.extractLsb' (6 - 2 * k.val) 2 := by
  revert b k; decide

/-- R58: the symbol k of one byte carries its crumb k. -/
theorem encodeByte_getElem? (b : Byte) (k : Fin 4) : (encodeByte b)[k.val]? = some (encSym (crumb b k)) :=
  match k with
  | 0 | 1 | 2 | 3 => rfl

/-- R58: the symbols of byte i start at index 4i. -/
theorem encodeFn_getElem? {p : List Byte} {i : Nat} {b : Byte} (h : p[i]? = some b) (k : Fin 4) :
    (encodeFn p)[4 * i + k.val]? = some (encSym (crumb b k)) := by
  induction p generalizing i with
  | nil => simp at h
  | cons c p ih =>
    rw [encodeFn_cons]
    cases i with
    | zero =>
      obtain rfl : c = b := by simpa using h
      rw [List.getElem?_append_left (by simp), Nat.mul_zero, Nat.zero_add, encodeByte_getElem?]
    | succ i =>
      rw [List.getElem?_append_right (by simp; omega), encodeByte_length,
        show 4 * (i + 1) + k.val - 4 = 4 * i + k.val by omega]
      exact ih (by simpa using h)

/-- Settles O9, by the symbol k of each byte and the bit group of its crumb k. -/
theorem encodeFnSymbols : Obligations.EncodeFnSymbols := fun p =>
  ⟨encodeFn_length p, fun _ b k h => by rw [← crumb_eq_extractLsb', encodeFn_getElem? h]⟩

/-! ## When the Engine faults -/

/-- No completion refuses. -/
theorem engineMove_ne_refused (s : State) (r : Refusal) : engineMove s ≠ .refused r := by
  unfold engineMove completeEncode completeDecode
  split
  · simp
  · split
    · simp
    · split <;> simp
  · split
    · simp
    · split
      · simp
      · split <;> simp

/-- R87: a completion of ENCODE that ends has read no `unwritten` cell. -/
theorem completeEncode_next_written {s t : State} (h : completeEncode s = .next t) (hc : s.opLen.toNat ≤ s.maxBytes)
    {i : Nat} (hi : i < s.opLen.toNat) : s.byteMem.read i ≠ none := by
  obtain ⟨hc', -⟩ | ⟨p, hl, -, hp, -⟩ := completeEncode_next h
  · omega
  · have hi : i < p.length := by omega
    simp [hp i hi, hi]

/-- R104, R109: a completion of DECODE that ends past its checks has read no `unwritten` cell: a cell that it reaches
through valid words is written. -/
theorem completeDecode_next_written {s t : State} (h : completeDecode s = .next t) (hc : s.opLen.toNat ≤ s.maxSyms)
    (hl : s.opLen.toNat % 4 = 0) {j : Nat} (hj : j < s.opLen.toNat)
    (hv : ∀ i, i < j → ∃ w c, s.symMem.read i = some w ∧ decLut w = some c) : s.symMem.read j ≠ none := by
  obtain ⟨hc', -⟩ | ⟨-, hl', -⟩ | ⟨-, -, ⟨k, w, hs, -⟩ | ⟨cs, hs, -⟩⟩ := completeDecode_next h
  · omega
  · omega
  · obtain ⟨-, -, hk, hw, hb⟩ := engScanSyms_invalid hs
    rcases Nat.lt_trichotomy j k with hjk | rfl | hkj
    · obtain ⟨v, c, hr, -⟩ := hb j (Nat.zero_le j) hjk
      simp [hr]
    · simp [hk]
    · obtain ⟨v, c, hr, hd⟩ := hv k hkj
      rw [hk] at hr
      cases hr
      simp [hw] at hd
  · obtain ⟨-, hr⟩ := engScanSyms_crumbs hs
    obtain ⟨w, c, hw, -⟩ := hr j hj
    rw [Nat.zero_add] at hw
    simp [hw]

/-- R64: the Engine's move faults exactly when the completion reads an `unwritten` cell. -/
theorem engineMove_fault_iff (s : State) : engineMove s = .fault .engUninitInput ↔ s.readsUnwritten := by
  refine ⟨fun h => (engineMove_fault h).2, fun hu => ?_⟩
  cases h : engineMove s with
  | fault f => rw [(engineMove_fault h).1]
  | refused r => exact absurd h (engineMove_ne_refused s r)
  | next t =>
    obtain ⟨ho, hc, i, hi, hr⟩ | ⟨ho, hc, hl, j, hj, hr, hv⟩ := hu
    · have he : completeEncode s = .next t := by simpa only [engineMove, ho] using h
      exact absurd hr (completeEncode_next_written he hc hi)
    · have hd : completeDecode s = .next t := by simpa only [engineMove, ho] using h
      exact absurd hr (completeDecode_next_written hd hc hl hj hv)

/-- Settles O22: within MAX_BYTES, an ENCODE that reads an `unwritten` cell is one with such an input cell. -/
theorem encodeFaultsOnUnwritten : Obligations.EncodeFaultsOnUnwritten := fun s ho hc =>
  (engineMove_fault_iff s).trans (by simp [State.readsUnwritten, ho, hc])

/-- Settles O24: past the checks, a DECODE that reads an `unwritten` cell is one whose scan reaches such a cell. -/
theorem decodeFaultsOnUnwritten : Obligations.DecodeFaultsOnUnwritten := fun s ho hc hl =>
  (engineMove_fault_iff s).trans (by simp [State.readsUnwritten, ho, hc, hl])

/-! ## The offset map -/

/-- R51: among the aligned offsets of the register block only 0x1C is unmapped. -/
theorem regAt_eq_none_iff : ∀ a < 0x30, a % 4 = 0 → (regAt a = none ↔ 0x1C ≤ a ∧ a < 0x20) := by decide

theorem regAt_regOffset (r : Reg) : regAt (regOffset r).toNat = some r := by
  cases r with
  | alpha v => revert v; decide
  | cmd | len | status | outLen | errPos | errSym | capBytes => rfl

theorem regOffset_bounds (r : Reg) : (regOffset r).toNat % 4 = 0 ∧ (regOffset r).toNat < 0x30 := by
  cases r with
  | alpha v => revert v; decide
  | cmd | len | status | outLen | errPos | errSym | capBytes => decide

/-- R51: a register is reached at its offset, in every build. -/
theorem locate_regOffset (p : Params) (r : Reg) : locate p (regOffset r) = some (.reg r) := by
  obtain ⟨ha, hlt⟩ := regOffset_bounds r
  simp [locate, ha, hlt, regAt_regOffset]

theorem busCheck_regOffset (p : Params) (r : Reg) : busCheck p (regOffset r) 4 = some (.reg r) := locate_regOffset p r

/-- R7: BYTE_MEM fits in its window. -/
theorem params_maxBytes_le (p : Params) : p.maxBytes ≤ 0x40000 := p.topByte.isLt

/-- R51, R53: the offset of a byte cell. -/
theorem locate_byteOffset {p : Params} {i : Nat} (h : i < p.maxBytes) :
    locate p (BitVec.ofNat 23 (0x100000 + 4 * i)) = some (.byteCell i) := by
  have hp := params_maxBytes_le p
  have ha : (BitVec.ofNat 23 (0x100000 + 4 * i)).toNat = 0x100000 + 4 * i := by
    rw [BitVec.toNat_ofNat, Nat.mod_eq_of_lt (by omega)]
  unfold locate
  rw [ha, if_neg (by omega), if_neg (by omega), if_pos (by omega),
    show (0x100000 + 4 * i - 0x100000) / 4 = i by omega, if_pos h]

/-- R51, R54: the offset of a symbol cell. -/
theorem locate_symOffset {p : Params} {j : Nat} (h : j < p.maxSyms) :
    locate p (BitVec.ofNat 23 (0x400000 + 4 * j)) = some (.symCell j) := by
  have hp := params_maxBytes_le p
  have hj : j < 4 * p.maxBytes := h
  have ha : (BitVec.ofNat 23 (0x400000 + 4 * j)).toNat = 0x400000 + 4 * j := by
    rw [BitVec.toNat_ofNat, Nat.mod_eq_of_lt (by omega)]
  unfold locate
  rw [ha, if_neg (by omega), if_neg (by omega), if_neg (by omega), if_pos (by omega),
    show (0x400000 + 4 * j - 0x400000) / 4 = j by omega, if_pos h]

/-- R51, R55 (a), (c), (d): the offsets that reach nothing, window by window. -/
theorem locate_eq_none_iff (p : Params) (off : Offset) : locate p off = none ↔ BusErrAccess p off 4 := by
  have hp := params_maxBytes_le p
  have hs : p.maxSyms = 4 * p.maxBytes := rfl
  have hoff : off.toNat < 0x800000 := off.isLt
  unfold locate BusErrAccess
  split
  · rename_i ha
    simp [ha]
  · rename_i ha
    split
    · rename_i hlt
      rw [Option.map_eq_none_iff, regAt_eq_none_iff _ hlt (by omega)]
      omega
    · split
      · split <;> simp <;> omega
      · split
        · split <;> simp <;> omega
        · simp; omega

/-- R55: the check of the bus refuses exactly the accesses that R55 names. -/
theorem busCheck_eq_none_iff (p : Params) (off : Offset) (size : Nat) :
    busCheck p off size = none ↔ BusErrAccess p off size := by
  by_cases hs : size = 4
  · subst hs
    simp [busCheck, locate_eq_none_iff]
  · simp [busCheck, BusErrAccess, hs]

/-! ## What the bus answers, location by location -/

section Replies
variable {s : State} {off : Offset} {size : Nat}

theorem busRead_of_none (h : busCheck s.params off size = none) : busRead off size s = .busErr := by
  simp only [busRead, h]

theorem busRead_of_reg {r : Reg} (h : busCheck s.params off size = some (.reg r)) :
    busRead off size s = .ok (readReg r s, s) := by
  simp only [busRead, h]

theorem busRead_of_byteCell {i : Nat} (h : busCheck s.params off size = some (.byteCell i)) :
    busRead off size s = readCell ((s.byteMem.read i).map (BitVec.setWidth 32)) s := by
  simp only [busRead, h]

theorem busRead_of_symCell {j : Nat} (h : busCheck s.params off size = some (.symCell j)) :
    busRead off size s = readCell (s.symMem.read j) s := by
  simp only [busRead, h]

variable {v : Word}

theorem busWrite_of_none (h : busCheck s.params off size = none) : busWrite off size v s = .busErr := by
  simp only [busWrite, h]

theorem busWrite_of_reg {r : Reg} (h : busCheck s.params off size = some (.reg r)) :
    busWrite off size v s = writeReg r v s := by
  simp only [busWrite, h]

theorem busWrite_of_byteCell {i : Nat} (h : busCheck s.params off size = some (.byteCell i)) :
    busWrite off size v s = writeCell { s with byteMem := s.byteMem.write i (v.setWidth 8) } s := by
  simp only [busWrite, h]

theorem busWrite_of_symCell {j : Nat} (h : busCheck s.params off size = some (.symCell j)) :
    busWrite off size v s = writeCell { s with symMem := s.symMem.write j v } s := by
  simp only [busWrite, h]

end Replies

/-! ## What a cell and a register answer -/

section Cells
variable {s : State}

/-- R164: a read while a command is in flight is a draw, whatever the cell. -/
theorem readCell_of_inFlight (cell : Option Word) (h : s.op ≠ .none) :
    readCell cell s = .ok (Config.busyRead s.draws, { s with draws := s.draws + 1 }) := by
  simp [readCell, h]

/-- R65: a read of an `unwritten` cell with nothing in flight. -/
theorem readCell_unwritten (h : s.op = .none) : readCell none s = .fault .hostUninitRead := by
  simp [readCell, h]

theorem readCell_written (w : Word) (h : s.op = .none) : readCell (some w) s = .ok (w, s) := by
  simp [readCell, h]

/-- R163: a write while a command is in flight. -/
theorem writeCell_of_inFlight (t : State) (h : s.op ≠ .none) : writeCell t s = .fault .hostBusyWrite := by
  simp [writeCell, h]

theorem writeCell_of_idle (t : State) (h : s.op = .none) : writeCell t s = .ok t := by
  simp [writeCell, h]

/-- R53, R54: a cell answers a read while a command is in flight or where it is written. -/
theorem readCell_ok_iff (cell : Option Word) (s : State) :
    (∃ a, readCell cell s = .ok a) ↔ s.op ≠ .none ∨ cell ≠ none := by
  by_cases h : s.op = .none
  · cases cell with
    | none => simp [readCell_unwritten h, h]
    | some w => simp [readCell_written w h]
  · simp [readCell_of_inFlight cell h, h]

/-- R163: a cell takes a write while nothing is in flight. -/
theorem writeCell_ok_iff (t s : State) : (∃ u, writeCell t s = .ok u) ↔ s.op = .none := by
  by_cases h : s.op = .none
  · simp [writeCell_of_idle t h, h]
  · simp [writeCell_of_inFlight t h, h]

theorem readCell_ne_busErr (cell : Option Word) (s : State) : readCell cell s ≠ .busErr := by
  by_cases h : s.op = .none
  · cases cell with
    | none => simp [readCell_unwritten h]
    | some w => simp [readCell_written w h]
  · simp [readCell_of_inFlight cell h]

theorem writeCell_ne_busErr (t s : State) : writeCell t s ≠ .busErr := by
  by_cases h : s.op = .none
  · simp [writeCell_of_idle t h]
  · simp [writeCell_of_inFlight t h]

/-- R52, R56, R72: every register answers OK to a write, CMD with whatever the command did. -/
theorem writeReg_ok (r : Reg) (v : Word) (s : State) : ∃ t, writeReg r v s = .ok t := by
  cases r with
  | cmd => exact ⟨_, by rw [writeReg, commandWrite, exec_eq, replyOf]⟩
  | len | status | outLen | errPos | errSym | capBytes | alpha => exact ⟨_, rfl⟩

/-- R56: every register but CMD and LEN ignores a write. -/
theorem writeReg_readOnly {r : Reg} (hc : r ≠ .cmd) (hl : r ≠ .len) (v : Word) (s : State) : writeReg r v s = .ok s := by
  cases r with
  | cmd => exact absurd rfl hc
  | len => exact absurd rfl hl
  | status | outLen | errPos | errSym | capBytes | alpha => rfl

end Cells

/-! ## BUSERR -/

/-- R55: a MemRead gets BUSERR from the check of the bus alone. -/
theorem busRead_eq_busErr_iff (off : Offset) (size : Nat) (s : State) :
    busRead off size s = .busErr ↔ BusErrAccess s.params off size := by
  rw [← busCheck_eq_none_iff]
  cases h : busCheck s.params off size with
  | none => simp [busRead_of_none h]
  | some l =>
    cases l with
    | reg r => simp [busRead_of_reg h]
    | byteCell i => simp [busRead_of_byteCell h, readCell_ne_busErr]
    | symCell j => simp [busRead_of_symCell h, readCell_ne_busErr]

/-- R55: a MemWrite gets BUSERR from the check of the bus alone. -/
theorem busWrite_eq_busErr_iff (off : Offset) (size : Nat) (v : Word) (s : State) :
    busWrite off size v s = .busErr ↔ BusErrAccess s.params off size := by
  rw [← busCheck_eq_none_iff]
  cases h : busCheck s.params off size with
  | none => simp [busWrite_of_none h]
  | some l =>
    cases l with
    | reg r =>
      obtain ⟨t, ht⟩ := writeReg_ok r v s
      simp [busWrite_of_reg h, ht]
    | byteCell i => simp [busWrite_of_byteCell h, writeCell_ne_busErr]
    | symCell j => simp [busWrite_of_symCell h, writeCell_ne_busErr]

section HostLine
variable {s : State} {off : Offset} {size : Nat} {rest : List HostOp}

/-- R76: a `W` line is one MemWrite. -/
theorem hostMove_write {v : Word} (h : s.program = .write off size v :: rest) :
    hostMove s = answerOf (busWrite off size v { s with program := rest }) (fun t => t) := by
  simp only [hostMove, h, performLine]

/-- R76: an `R` line is one MemRead, whose value is noted and checked. -/
theorem hostMove_read {expect : Option Word} (h : s.program = .read off size expect :: rest) :
    hostMove s = answerOf (busRead off size { s with program := rest })
      (fun r => noteValue r.1 (checkExpected expect r.1 r.2)) := by
  simp only [hostMove, h, performLine]

end HostLine

/-- Settles O36: the check of the bus decides both accesses, and the Host's line passes BUSERR on as its fault. -/
theorem busErrors : Obligations.BusErrors := by
  refine fun off size v expect rest s => ⟨busRead_eq_busErr_iff off size s, busWrite_eq_busErr_iff off size v s,
    fun he hp => ?_, fun he hp => ?_⟩
  · rw [hostMove_write hp, (busWrite_eq_busErr_iff off size v { s with program := rest }).mpr he, answerOf]
  · rw [hostMove_read hp, (busRead_eq_busErr_iff off size { s with program := rest }).mpr he, answerOf]

/-! ## The registers -/

/-- R52: a read at a register's offset returns its value and has no side effect. -/
theorem busRead_regOffset (r : Reg) (s : State) : busRead (regOffset r) 4 s = .ok (readReg r s, s) :=
  busRead_of_reg (busCheck_regOffset s.params r)

/-- Settles O37, register by register of R51. -/
theorem registerReads : Obligations.RegisterReads := fun s =>
  ⟨busRead_regOffset .cmd s, busRead_regOffset .len s, busRead_regOffset .status s, busRead_regOffset .outLen s,
    busRead_regOffset .errPos s, busRead_regOffset .errSym s, busRead_regOffset .capBytes s,
    busRead_regOffset (.alpha 0) s, busRead_regOffset (.alpha 1) s, busRead_regOffset (.alpha 2) s,
    busRead_regOffset (.alpha 3) s⟩

/-- R56: a write at the offset of a read-only register answers OK and changes nothing. -/
theorem busWrite_readOnly {r : Reg} (hc : r ≠ .cmd) (hl : r ≠ .len) (v : Word) (s : State) :
    busWrite (regOffset r) 4 v s = .ok s :=
  (busWrite_of_reg (busCheck_regOffset s.params r)).trans (writeReg_readOnly hc hl v s)

/-- R56: the read-only registers, in the order of R51. -/
def readOnlyRegs : List Reg :=
  [.status, .outLen, .errPos, .errSym, .capBytes, .alpha 0, .alpha 1, .alpha 2, .alpha 3]

theorem readOnlyRegs_ne : ∀ r ∈ readOnlyRegs, r ≠ .cmd ∧ r ≠ .len := by decide

/-- Settles O38: the offsets are those of the read-only registers. -/
theorem readOnlyWritesAreIgnored : Obligations.ReadOnlyWritesAreIgnored := by
  refine fun v s => ⟨fun off hoff => ?_, busRead_regOffset .cmd s⟩
  obtain ⟨r, hr, rfl⟩ : ∃ r ∈ readOnlyRegs, regOffset r = off := List.mem_map.mp hoff
  obtain ⟨hc, hl⟩ := readOnlyRegs_ne r hr
  exact busWrite_readOnly hc hl v s

/-! ## The two windows -/

/-- Settles O40, by what the bus and a byte cell answer. -/
theorem byteWindow : Obligations.ByteWindow := by
  intro s i v hi
  have hl : busCheck s.params (BitVec.ofNat 23 (0x100000 + 4 * i)) 4 = some (.byteCell i) := locate_byteOffset hi
  rw [busRead_of_byteCell hl, busWrite_of_byteCell hl]
  refine ⟨fun ho => ⟨readCell_of_inFlight _ ho, writeCell_of_inFlight _ ho⟩, fun ho => ⟨fun hr => ?_, fun b hr => ?_, ?_⟩⟩
  · rw [hr, Option.map_none, readCell_unwritten ho]
  · rw [hr, Option.map_some, readCell_written _ ho]
  · exact ⟨_, writeCell_of_idle _ ho, by rw [Memory.read_write_same, BitVec.setWidth_eq_extractLsb' (by omega)],
      fun k hk => Memory.read_write_other _ _ hk, rfl⟩

/-- Settles O41, by what the bus and a symbol cell answer. -/
theorem symWindow : Obligations.SymWindow := by
  intro s j v hj
  have hl : busCheck s.params (BitVec.ofNat 23 (0x400000 + 4 * j)) 4 = some (.symCell j) := locate_symOffset hj
  rw [busRead_of_symCell hl, busWrite_of_symCell hl]
  refine ⟨fun ho => ⟨readCell_of_inFlight _ ho, writeCell_of_inFlight _ ho⟩, fun ho => ⟨fun hr => ?_, fun w hr => ?_, ?_⟩⟩
  · rw [hr, readCell_unwritten ho]
  · rw [hr, readCell_written _ ho]
  · exact ⟨_, writeCell_of_idle _ ho, Memory.read_write_same _ _ _, fun k hk => Memory.read_write_other _ _ hk, rfl⟩

/-! ## Which line the Host performs -/

/-- A line is performed exactly when the bus answers its access OK. -/
theorem answerOf_next_iff {α : Type} (r : BusReply α) (k : α → State) :
    (∃ t, answerOf r k = .next t) ↔ ∃ a, r = .ok a := by
  cases r <;> simp [answerOf]

theorem busRead_ok_iff (off : Offset) (size : Nat) (s : State) :
    (∃ a, busRead off size s = .ok a) ↔ accessAllowed s false off size := by
  unfold accessAllowed
  cases h : busCheck s.params off size with
  | none => simp [busRead_of_none h]
  | some l =>
    cases l with
    | reg r => simp [busRead_of_reg h]
    | byteCell i => rw [busRead_of_byteCell h, readCell_ok_iff]; simp
    | symCell j => rw [busRead_of_symCell h, readCell_ok_iff]; simp

theorem busWrite_ok_iff (off : Offset) (size : Nat) (v : Word) (s : State) :
    (∃ t, busWrite off size v s = .ok t) ↔ accessAllowed s true off size := by
  unfold accessAllowed
  cases h : busCheck s.params off size with
  | none => simp [busWrite_of_none h]
  | some l =>
    cases l with
    | reg r => simp [busWrite_of_reg h, writeReg_ok]
    | byteCell i => rw [busWrite_of_byteCell h, writeCell_ok_iff]; simp
    | symCell j => rw [busWrite_of_symCell h, writeCell_ok_iff]; simp

/-- R78: POLL's read of STATUS never fails. -/
theorem hostMove_poll {s : State} {rest : List HostOp} (h : s.program = .poll :: rest) :
    hostMove s = .next (pollStep rest (statusWord s.status) s) := by
  simp only [hostMove, h, performLine]
  exact congrArg (answerOf · _) (busRead_regOffset .status s)

/-- Settles O52, line by line: the access of a `W` or `R` line is the one that `hostAllowed` judges. -/
theorem hostMovesExactlyWhenAllowed : Obligations.HostMovesExactlyWhenAllowed := by
  intro s
  unfold State.hostAllowed
  cases hp : s.program with
  | nil => simp [hostMove_of_programEnd hp]
  | cons line rest =>
    cases line with
    | write off size v => rw [hostMove_write hp, answerOf_next_iff, busWrite_ok_iff]; rfl
    | read off size expect => rw [hostMove_read hp, answerOf_next_iff, busRead_ok_iff]; rfl
    | poll => simp [hostMove_poll hp]

end Sys2Proof.Machine
end

section
/-! Proofs of the statements of spec/30_encoding.md: the command words and their fields, the record of a reserved word, what
a host read notes, and the pseudo-instructions. -/

namespace Sys2Proof.Machine

/-! ## Command words -/

/-- R70: a word is its fields RSV and OPC. -/
theorem rsvField_append_opcField (w : Word) : rsvField w ++ opcField w = w :=
  (BitVec.extractLsb'_append_extractLsb'_eq_extractLsb' (by decide)).trans BitVec.extractLsb'_eq_self

/-- R70: RSV counts sixteens. -/
theorem toNat_rsv_append_opc (rsv : BitVec 28) (opc : BitVec 4) : (rsv ++ opc).toNat = 16 * rsv.toNat + opc.toNat := by
  rw [BitVec.toNat_append, ← Nat.shiftLeft_add_eq_or_of_lt opc.isLt, Nat.shiftLeft_eq]
  omega

/-- R72: the fields of a reserved word are those of a word above the table's four. -/
theorem reservedFields_iff (rsv : BitVec 28) (opc : BitVec 4) :
    reservedFields rsv opc = true ↔ 3 < (rsv ++ opc).toNat := by
  have hrsv : rsv ≠ 0 ↔ rsv.toNat ≠ 0 := not_congr BitVec.toNat_inj.symm
  have hopc : opc.toNat < 16 := opc.isLt
  simp only [reservedFields, Bool.or_eq_true, decide_eq_true_eq, hrsv, toNat_rsv_append_opc]
  omega

/-- R71, R72: every word above the table's four is reserved. -/
theorem decode_of_three_lt {w : Word} (h : 3 < w.toNat) : decode w = .reserved (rsvField w) (opcField w) := by
  have hne : ∀ v : Word, v.toNat ≤ 3 → w ≠ v := fun v hv hw => by subst hw; omega
  simp [decode, hne]

/-- R71: a word is one of the table's four, or above them. -/
theorem word_cases (w : Word) : w = 0 ∨ w = 1 ∨ w = 2 ∨ w = 3 ∨ 3 < w.toNat := by
  bv_omega

/-- Settles O1, by running the decoder on each word. -/
theorem decodeReadsTheTableWords : Obligations.DecodeReadsTheTableWords := by
  unfold Obligations.DecodeReadsTheTableWords
  decide

/-- Settles O2, command by command; a well-formed reserved command has a word above the table's four, and its fields are
those of the word. -/
theorem decodeOfEncode : Obligations.DecodeOfEncode := by
  intro i hi
  cases i with
  | nop | encode | decode | clear => rfl
  | reserved rsv opc =>
    obtain ⟨hrsv, hopc⟩ := Laws.TableRow.reserved rsv opc
    have hlt : 3 < (encode (.reserved rsv opc)).toNat := (reservedFields_iff rsv opc).mp hi
    rw [decode_of_three_lt hlt, hrsv, hopc]

/-- Settles O3: one of the table's four words, or a word above them, which its fields make up again. -/
theorem encodeOfDecode : Obligations.EncodeOfDecode := by
  intro w
  obtain rfl | rfl | rfl | rfl | h := word_cases w
  · exact ⟨rfl, rfl⟩
  · exact ⟨rfl, rfl⟩
  · exact ⟨rfl, rfl⟩
  · exact ⟨rfl, rfl⟩
  · rw [decode_of_three_lt h]
    have hw : rsvField w ++ opcField w = w := rsvField_append_opcField w
    exact ⟨(reservedFields_iff _ _).mpr (hw.symm ▸ h), hw⟩

/-! ## The record of a reserved word -/

theorem statusWord_badCmd : statusWord (statusError .badCmd .none) = 0x00000046 := by decide

/-- R73, R134: while BUSY a command does nothing. -/
theorem exec_of_busy (i : Instr) {s : State} (hb : s.status.busy = true) : exec i s = .next s := by
  rw [exec_eq, if_pos hb]

theorem exec_of_idle (i : Instr) {s : State} (hb : s.status.busy = false) : exec i s = .next (commandEffect i s) := by
  rw [exec_eq, if_neg (by simp [hb])]

/-- Settles O18: the words above 3 decode as reserved, and the effect of each is `recordBadCmd`. -/
theorem reservedRecordsBadCmd : Obligations.ReservedRecordsBadCmd :=
  ⟨fun _ h => ⟨_, _, decode_of_three_lt h⟩, fun _ _ s =>
    ⟨fun hb => ⟨recordBadCmd s, exec_of_idle _ hb, statusWord_badCmd, rfl⟩, exec_of_busy _⟩⟩

/-! ## What a host read notes -/

/-- R76: checking an assertion can change only its record. -/
theorem checkExpected_frame (expect : Option Word) (v : Word) (s : State) :
    checkExpected expect v s = { s with assertFailed := (checkExpected expect v s).assertFailed } := by
  cases expect with
  | none => rfl
  | some e => by_cases h : v = e <;> simp [checkExpected, h]

/-- R76: an assertion fails exactly on another value than the one it gives, and the record of a failure stays. -/
theorem checkExpected_assertFailed_iff (expect : Option Word) (v : Word) (s : State) :
    (checkExpected expect v s).assertFailed = true ↔ s.assertFailed = true ∨ ∃ e, expect = some e ∧ v ≠ e := by
  cases expect with
  | none => simp [checkExpected]
  | some e => by_cases h : v = e <;> simp [checkExpected, h]

/-- R52, R164: a MemRead that answers a value leaves all but the count of draws. -/
theorem busRead_frame {off : Offset} {size : Nat} {s u : State} {v : Word} (h : busRead off size s = .ok (v, u)) :
    u = { s with draws := u.draws } := by
  obtain rfl | ⟨-, rfl⟩ := busRead_ok h
  · rfl
  · rfl

/-- Settles O57: the read changes at most the draws, the check at most its record, and the note is appended. -/
theorem hostReadNotesTheValue : Obligations.HostReadNotesTheValue := by
  intro s u off expect rest v hp hr
  have hu := busRead_frame hr
  have hc := checkExpected_frame expect v u
  refine ⟨noteValue v (checkExpected expect v u), by rw [hostMove_read hp, hr, answerOf], ?_, ?_, ?_⟩
  · rw [noteValue_noted, hc, hu]
  · rw [noteValue_assertFailed, checkExpected_assertFailed_iff, hu]
  · rw [hc, hu]
    rfl

/-! ## The pseudo-instructions -/

/-- R78: POLL on the STATUS word goes by BUSY. -/
theorem pollStep_statusWord (rest : List HostOp) (st : Status) (s : State) :
    pollStep rest (statusWord st) s =
      if st.busy then s else noteValue (statusWord st) { s with program := rest } := by
  obtain ⟨hb, -⟩ := statusWord_fields st
  rw [pollStep, hb]

/-- Settles O58: the expansions as `expandLine` writes them, and POLL by the BUSY bit of the word it reads. -/
theorem pseudoInstructions : Obligations.PseudoInstructions := by
  refine ⟨rfl, rfl, rfl, rfl, rfl, fun _ => rfl, fun _ => rfl, fun s rest hp => ?_⟩
  rw [hostMove_poll hp, pollStep_statusWord]
  refine ⟨fun hb => by rw [if_pos hb], fun hb => ?_⟩
  rw [hb]
  rfl

end Sys2Proof.Machine
end

section
/-! Proofs of the statements of spec/40_encoder.md: the shifter and its two realisations, ENCODE_FN tells payloads apart, and
what ENCODE's completion writes and depends on. -/

namespace Sys2Proof.Machine

/-! ## The shifter -/

/-- R81: the low two bits of a byte are all that its mask with 3 keeps. -/
theorem setWidth_and_three (x : Byte) : ((x &&& 0x3).setWidth 2).setWidth 8 = x &&& 0x3 := by
  revert x; decide

/-- Settles O5: the mask leaves two bits, which are the bit group. -/
theorem crumbIsTheBitGroup : Obligations.CrumbIsTheBitGroup := fun b k =>
  ⟨setWidth_and_three (b >>> (6 - 2 * k.val)), crumb_eq_extractLsb' b k⟩

/-- A bit group of a bit group is a bit group of the whole. -/
theorem extractLsb'_of_extractLsb' {w n m i j : Nat} (x : BitVec w) (h : j + m ≤ n) :
    (x.extractLsb' i n).extractLsb' j m = x.extractLsb' (i + j) m := by
  ext k hk
  have hn : j + k < n := by omega
  simp [hn, Nat.add_assoc]

/-- R82, R83: the LUT takes the bit groups of a byte from its two nibbles. -/
theorem nibbleToCrumbs_nibbles (b : Byte) :
    nibbleToCrumbs (nibbles b).1 = (b.extractLsb' 6 2, b.extractLsb' 4 2) ∧
      nibbleToCrumbs (nibbles b).2 = (b.extractLsb' 2 2, b.extractLsb' 0 2) :=
  ⟨Prod.ext (extractLsb'_of_extractLsb' b (by decide)) (extractLsb'_of_extractLsb' b (by decide)),
    Prod.ext (extractLsb'_of_extractLsb' b (by decide)) (extractLsb'_of_extractLsb' b (by decide))⟩

/-- Settles O6: both realisations take the same bit groups of the byte. -/
theorem theTwoEncodersAgree : Obligations.TheTwoEncodersAgree := by
  intro b
  obtain ⟨hhi, hlo⟩ := nibbleToCrumbs_nibbles b
  rw [hhi, hlo]
  simp only [crumb_eq_extractLsb']
  exact ⟨rfl, rfl⟩

/-! ## ENCODE_FN tells payloads apart -/

/-- R88 (d) on one byte: its symbols give its crumbs, and those make up the byte. -/
theorem encodeByte_injective {b c : Byte} (h : encodeByte b = encodeByte c) : b = c := by
  simp only [encodeByte, List.cons.injEq, and_true] at h
  obtain ⟨h0, h1, h2, h3⟩ := h
  rw [← align_crumbs b, ← align_crumbs c, alphabetLaw.distinct _ _ h0, alphabetLaw.distinct _ _ h1,
    alphabetLaw.distinct _ _ h2, alphabetLaw.distinct _ _ h3]

/-- Settles O10, byte by byte: the first four symbols are those of the first byte. -/
theorem encodeFnIsInjective : Obligations.EncodeFnIsInjective := by
  intro p
  induction p with
  | nil =>
    intro q h
    cases q with
    | nil => rfl
    | cons c q => simp [encodeByte] at h
  | cons b p ih =>
    intro q h
    cases q with
    | nil => simp [encodeByte] at h
    | cons c q =>
      obtain ⟨hb, hp⟩ := List.append_inj h rfl
      rw [encodeByte_injective hb, ih q hp]

/-! ## The completion of ENCODE -/

section Completion
variable {s : State}

theorem engineMove_encode (ho : s.op = .encode) : engineMove s = completeEncode s := by
  simp only [engineMove, ho]

theorem encodeTooLong_iff : encodeTooLong s = true ↔ s.maxBytes < s.opLen.toNat := decide_eq_true_iff

/-- R144: an operand above MAX_BYTES ends ENCODE with CAPACITY, whatever BYTE_MEM holds. -/
theorem completeEncode_of_tooLong (hc : s.maxBytes < s.opLen.toNat) :
    completeEncode s = .next (finishError .capacity 0 0 s) := by
  rw [completeEncode, if_pos (encodeTooLong_iff.mpr hc)]

/-- R87: with its input written, ENCODE writes the symbols of that input. -/
theorem completeEncode_of_holdsBytes {p : List Byte} (hl : p.length = s.opLen.toNat) (hc : s.opLen.toNat ≤ s.maxBytes)
    (hp : s.holdsBytes p) :
    completeEncode s = .next (finishOk .encode (BitVec.ofNat 32 (4 * s.opLen.toNat)) (engWriteSyms (encodeFn p) s)) := by
  have hr : engReadBytes s 0 (operandCount s) = .ok p := by
    rw [operandCount, ← hl]
    exact engReadBytes_of_cells fun k hk => by rw [Nat.zero_add, hp k hk]
  rw [completeEncode, if_neg (by rw [encodeTooLong_iff]; omega), hr]
  rfl

/-- R64: the symbols that the Engine writes fill the cells from 0 on, and the cells after them keep their value. -/
theorem read_engWriteSyms (ws : List Word) (j : Nat) :
    (engWriteSyms ws s).symMem.read j = if j < ws.length then ws[j]? else s.symMem.read j := by
  simp [Memory.read_writeFrom]

/-- R7: the symbol count of an operand within MAX_BYTES fits in OUT_LEN. -/
theorem toNat_symbolCount (hc : s.opLen.toNat ≤ s.maxBytes) :
    (BitVec.ofNat 32 (4 * s.opLen.toNat)).toNat = 4 * s.opLen.toNat := by
  have hmax := maxBytes_le s
  rw [BitVec.toNat_ofNat]
  omega

theorem statusWord_ok_encode : statusWord (statusOk .encode) = 0x00000102 := by decide

end Completion

/-- Settles O21: the completion is the write of the symbols and `finishOk`. -/
theorem encodeCompletes : Obligations.EncodeCompletes := by
  intro s p ho hl hc hp
  refine ⟨_, (engineMove_encode ho).trans (completeEncode_of_holdsBytes hl (hl ▸ hc) hp), fun j hj => ?_, fun j hj => ?_,
    ?_, statusWord_ok_encode, rfl⟩
  · rw [finishOk_symMem, read_engWriteSyms, encodeFn_length, if_pos hj]
  · rw [finishOk_symMem, read_engWriteSyms, encodeFn_length, if_neg (by omega)]
  · rw [finishOk_outLen, toNat_symbolCount (hl ▸ hc), hl]

/-- Settles O32: each end of ENCODE in the one state is its end in the other, with the same symbols written. -/
theorem encodeDependsOnlyOnInput : Obligations.EncodeDependsOnlyOnInput := by
  intro s u t hs hu hparams hlen hlast hcells h
  have hmax : u.maxBytes = s.maxBytes := congrArg Params.maxBytes hparams
  rw [engineMove_encode hs] at h
  rw [engineMove_encode hu]
  obtain ⟨hc, rfl⟩ | ⟨p, hl, hc, hp, rfl⟩ := completeEncode_next h
  · refine ⟨_, completeEncode_of_tooLong (by rw [hmax, hlen]; exact hc), ?_, rfl, fun _ => ⟨rfl, rfl⟩, fun j hj => ?_⟩
    · rw [finishError_status, finishError_status, hlast]
    · exact absurd hj (Nat.not_lt_zero j)
  · have hpu : u.holdsBytes p := fun i hi => (hcells i (hl ▸ hi)).trans (hp i hi)
    refine ⟨_, completeEncode_of_holdsBytes (hl.trans (congrArg _ hlen.symm)) (by rw [hmax, hlen]; exact hc) hpu,
      rfl, by rw [finishOk_outLen, finishOk_outLen, hlen], by simp, fun j hj => ?_⟩
    have hj : j < (encodeFn p).length := by
      rwa [finishOk_outLen, toNat_symbolCount hc, ← hl, ← encodeFn_length] at hj
    rw [finishOk_symMem, finishOk_symMem, read_engWriteSyms, read_engWriteSyms, if_pos hj, if_pos hj]

end Sys2Proof.Machine
end

section
/-! Proofs of the statements of spec/41_decoder.md: DEC_LUT's table, DECODE_FN as the inverse of ENCODE_FN, DECODE's
completion as DECODE_FN, and the round trips of R111. -/

namespace Sys2Proof.Machine

/-- Settles O7: the entries of the alphabet are the table's literals. -/
theorem decLutTable : Obligations.DecLutTable := fun _ => rfl

/-! ## The symbol scan -/

/-- R104: the scan stops at a word that DEC_LUT rejects. -/
theorem scanWords_cons_invalid {w : Word} (h : decLut w = none) (j : Nat) (ws : List Word) :
    scanWords j (w :: ws) = .error (j, w) := by
  simp only [scanWords, h]

/-- R104: the scan goes on past a word that DEC_LUT accepts. -/
theorem scanWords_cons_valid {w : Word} {c : Crumb} (h : decLut w = some c) (j : Nat) (ws : List Word) :
    scanWords j (w :: ws) = (scanWords (j + 1) ws).map (c :: ·) := by
  simp only [scanWords, h]
  cases scanWords (j + 1) ws <;> rfl

/-- The scan of the symbols of crumbs gives the crumbs. -/
theorem scanWords_map_encSym (j : Nat) (cs : List Crumb) : scanWords j (cs.map encSym) = .ok cs := by
  induction cs generalizing j with
  | nil => rfl
  | cons c cs ih => rw [List.map_cons, scanWords_cons_valid (decLut_encSym c), ih]; rfl

/-- A scan that accepts every word has read the symbols of its crumbs. -/
theorem eq_map_encSym_of_scanWords {j : Nat} {ws : List Word} {cs : List Crumb} (h : scanWords j ws = .ok cs) :
    ws = cs.map encSym := by
  induction ws generalizing j cs with
  | nil => cases h; rfl
  | cons w ws ih =>
    cases hw : decLut w with
    | none => rw [scanWords_cons_invalid hw] at h; cases h
    | some c =>
      rw [scanWords_cons_valid hw] at h
      cases hs : scanWords (j + 1) ws with
      | error e => rw [hs] at h; cases h
      | ok ds =>
        rw [hs] at h
        cases h
        rw [List.map_cons, encSym_of_decLut hw, ← ih hs]

/-- R104: a scan over valid words accepts them all. -/
theorem scanWords_of_valid {ws : List Word} (h : ∀ w ∈ ws, decLut w ≠ none) (j : Nat) :
    ∃ cs, scanWords j ws = .ok cs := by
  induction ws generalizing j with
  | nil => exact ⟨[], rfl⟩
  | cons w ws ih =>
    obtain ⟨hw, hws⟩ := List.forall_mem_cons.mp h
    obtain ⟨c, hc⟩ := Option.ne_none_iff_exists'.mp hw
    obtain ⟨cs, hcs⟩ := ih hws (j + 1)
    exact ⟨c :: cs, by rw [scanWords_cons_valid hc, hcs]; rfl⟩

/-- R104: a scan ends at the first invalid word, with its index. -/
theorem scanWords_of_first_invalid {ws : List Word} {i : Nat} {w : Word} (hw : ws[i]? = some w) (hd : decLut w = none)
    (hfirst : ∀ (k : Nat) (v : Word), k < i → ws[k]? = some v → decLut v ≠ none) (j : Nat) :
    scanWords j ws = .error (j + i, w) := by
  induction ws generalizing i j with
  | nil => simp at hw
  | cons v ws ih =>
    cases i with
    | zero =>
      obtain rfl : v = w := by simpa using hw
      exact scanWords_cons_invalid hd j ws
    | succ i =>
      obtain ⟨c, hc⟩ := Option.ne_none_iff_exists'.mp (hfirst 0 v (by omega) rfl)
      have hrest : scanWords (j + 1) ws = .error (j + 1 + i, w) :=
        ih (by simpa using hw) (fun k u hk hu => hfirst (k + 1) u (by omega) (by simpa using hu)) (j + 1)
      rw [scanWords_cons_valid hc, hrest, Nat.add_right_comm]
      rfl

/-- The index that a scan reports is that of a word it was given. -/
theorem scanWords_error_lt {ws : List Word} {j i : Nat} {w : Word} (h : scanWords j ws = .error (i, w)) :
    i < j + ws.length := by
  induction ws generalizing j with
  | nil => cases h
  | cons v ws ih =>
    rw [List.length_cons]
    cases hv : decLut v with
    | none => rw [scanWords_cons_invalid hv] at h; cases h; omega
    | some c =>
      rw [scanWords_cons_valid hv] at h
      cases hs : scanWords (j + 1) ws with
      | ok cs => rw [hs] at h; cases h
      | error e =>
        rw [hs] at h
        cases h
        have hlt := ih hs
        omega

/-! ## DECODE_FN undoes ENCODE_FN -/

/-- R81: the four crumbs of one byte, k = 0 first. -/
def byteCrumbs (b : Byte) : List Crumb := [crumb b 0, crumb b 1, crumb b 2, crumb b 3]

/-- R86: ENCODE_FN is ENC_SYM on the crumbs of the payload. -/
theorem encodeFn_eq_map_encSym (p : List Byte) : encodeFn p = (p.flatMap byteCrumbs).map encSym := by
  rw [List.map_flatMap]
  rfl

/-- The assemble phase gives the bytes back from their crumbs. -/
theorem assembleBytes_byteCrumbs (p : List Byte) : assembleBytes (p.flatMap byteCrumbs) = p := by
  induction p with
  | nil => rfl
  | cons b p ih => simp only [List.flatMap_cons, byteCrumbs, List.cons_append, List.nil_append, assembleBytes_cons,
      align_crumbs, ih]

/-- The crumbs of the assembled bytes are the crumbs that they were assembled from. -/
theorem byteCrumbs_assembleBytes (cs : List Crumb) (h : cs.length % 4 = 0) :
    (assembleBytes cs).flatMap byteCrumbs = cs := by
  match cs with
  | [] => rfl
  | [_] | [_, _] | [_, _, _] => simp at h
  | a :: b :: c :: d :: rest =>
    obtain ⟨ha, hb, hc, hd⟩ := crumb_align a b c d
    have hrest : (assembleBytes rest).flatMap byteCrumbs = rest :=
      byteCrumbs_assembleBytes rest (by simpa [Nat.add_assoc] using h)
    rw [assembleBytes_cons, List.flatMap_cons, hrest, byteCrumbs, ha, hb, hc, hd]
    rfl

/-- R103: a length that is no multiple of 4 is reported. -/
theorem decodeFn_of_badLength {ws : List Word} (h : ws.length % 4 ≠ 0) : decodeFn ws = .errLength := if_pos h

/-- R107: past the length check the scan decides. -/
theorem decodeFn_of_scanWords_ok {ws : List Word} {cs : List Crumb} (hl : ws.length % 4 = 0)
    (hs : scanWords 0 ws = .ok cs) : decodeFn ws = .ok (assembleBytes cs) := by
  simp only [decodeFn, hl, hs, ne_eq, not_true_eq_false, if_false]

theorem decodeFn_of_scanWords_error {ws : List Word} {j : Nat} {w : Word} (hl : ws.length % 4 = 0)
    (hs : scanWords 0 ws = .error (j, w)) : decodeFn ws = .errSymbol j w := by
  simp only [decodeFn, hl, hs, ne_eq, not_true_eq_false, if_false]

/-- R107, R111: the words that decode to a payload are the payload's encoding, and no others. -/
theorem decodeFn_eq_ok_iff {ws : List Word} {bs : List Byte} : decodeFn ws = .ok bs ↔ ws = encodeFn bs := by
  constructor
  · intro h
    by_cases hl : ws.length % 4 = 0
    · cases hs : scanWords 0 ws with
      | error e => rw [decodeFn_of_scanWords_error hl hs] at h; cases h
      | ok cs =>
        rw [decodeFn_of_scanWords_ok hl hs] at h
        cases h
        rw [encodeFn_eq_map_encSym, byteCrumbs_assembleBytes cs (scanWords_ok_length hs ▸ hl)]
        exact eq_map_encSym_of_scanWords hs
    · rw [decodeFn_of_badLength hl] at h; cases h
  · rintro rfl
    have hl : (encodeFn bs).length % 4 = 0 := by rw [encodeFn_length]; omega
    rw [decodeFn_of_scanWords_ok hl (encodeFn_eq_map_encSym bs ▸ scanWords_map_encSym 0 _), assembleBytes_byteCrumbs]

/-- R104, R107: valid words in fours decode. -/
theorem decodeFn_of_valid {ws : List Word} (hl : ws.length % 4 = 0) (h : ∀ w ∈ ws, decLut w ≠ none) :
    ∃ bs, decodeFn ws = .ok bs := by
  obtain ⟨cs, hs⟩ := scanWords_of_valid h 0
  exact ⟨_, decodeFn_of_scanWords_ok hl hs⟩

/-- Settles O11: the length check comes first, then the scan finds the first invalid word, or none. -/
theorem decodeFnOutcomes : Obligations.DecodeFnOutcomes := fun _ =>
  ⟨decodeFn_of_badLength, fun hl j _ hw hd hfirst =>
    decodeFn_of_scanWords_error hl (Nat.zero_add j ▸ scanWords_of_first_invalid hw hd hfirst 0), decodeFn_of_valid⟩

/-- Settles O13: the encoding is the words that decode to the payload. -/
theorem decodeFnOfEncodeFn : Obligations.DecodeFnOfEncodeFn := fun _ => decodeFn_eq_ok_iff.mpr rfl

/-- Settles O14: the words that decode to a payload are its encoding. -/
theorem encodeFnOfDecodeFn : Obligations.EncodeFnOfDecodeFn := fun _ _ h => (decodeFn_eq_ok_iff.mp h).symm

/-- R105, R106: a byte is made up of its crumbs, the first the most significant. -/
theorem byte_eq_or_crumbs (b : Byte) :
    b = ((crumb b 0).setWidth 8 <<< 6) ||| ((crumb b 1).setWidth 8 <<< 4) ||| ((crumb b 2).setWidth 8 <<< 2) |||
      (crumb b 3).setWidth 8 := by
  revert b; decide

/-- Settles O12: the words are the encoding of the bytes, so that word 4i+k decodes to crumb k of byte i. -/
theorem decodeFnClosedForm : Obligations.DecodeFnClosedForm := by
  intro ws bs h
  obtain rfl := decodeFn_eq_ok_iff.mp h
  refine ⟨(encodeFn_length bs).symm, fun i b hb => ?_⟩
  have hword (k : Fin 4) : (encodeFn bs)[4 * i + k.val]?.bind decLut = some (crumb b k) := by
    rw [encodeFn_getElem? hb, Option.bind_some, decLut_encSym]
  exact ⟨_, _, _, _, hword 0, hword 1, hword 2, hword 3, byte_eq_or_crumbs b⟩

/-! ## The completion of DECODE -/

/-- What the Engine's scan ends with where the cells hold the words `ws`, the first at index `j`. -/
def scanOutcome (j : Nat) (ws : List Word) : ScanResult :=
  match scanWords j ws with
  | .ok cs => .crumbs cs
  | .error (i, w) => .invalid i w

/-- How the completion of DECODE ends where DECODE_FN answers `r` (R109). -/
def finishDecode (r : DecodeResult) (s : State) : State :=
  match r with
  | .ok bs => finishOk .decode (BitVec.ofNat 32 (s.opLen.toNat / 4)) (engWriteBytes bs s)
  | .errLength => finishError .length 0 0 s
  | .errSymbol j w => finishError .symbol (BitVec.ofNat 32 j) w s

section Completion
variable {s : State}

/-- R104: over written cells the Engine's scan is that of DECODE_FN. -/
theorem engScanSyms_of_cells {ws : List Word} {j : Nat}
    (h : ∀ k, k < ws.length → s.symMem.read (j + k) = ws[k]?) : engScanSyms s j ws.length = scanOutcome j ws := by
  induction ws generalizing j with
  | nil => rfl
  | cons w ws ih =>
    have hread : engReadSym s j = .ok w := by
      have h0 : s.symMem.read j = some w := by simpa using h 0 (by simp)
      simp only [engReadSym, h0]
    have hrest : engScanSyms s (j + 1) ws.length = scanOutcome (j + 1) ws := ih fun k hk => by
      rw [Nat.add_assoc, Nat.add_comm 1 k, h (k + 1) (by simpa using hk), List.getElem?_cons_succ]
    cases hw : decLut w with
    | none => simp only [List.length_cons, engScanSyms, hread, hw, scanOutcome, scanWords_cons_invalid hw]
    | some c =>
      simp only [List.length_cons, engScanSyms, hread, hw, hrest, scanOutcome, scanWords_cons_valid hw]
      cases scanWords (j + 1) ws <;> rfl

theorem engineMove_decode (ho : s.op = .decode) : engineMove s = completeDecode s := by
  simp only [engineMove, ho]

theorem decodeTooLong_iff : decodeTooLong s = true ↔ s.maxSyms < s.opLen.toNat := decide_eq_true_iff

theorem decodeBadLength_iff : decodeBadLength s = true ↔ s.opLen.toNat % 4 ≠ 0 := decide_eq_true_iff

/-- R107, R109: with its input within MAX_SYMS and written, DECODE ends as DECODE_FN answers. -/
theorem completeDecode_of_holdsSyms {ws : List Word} (hl : ws.length = s.opLen.toNat) (hc : ws.length ≤ s.maxSyms)
    (hw : s.holdsSyms ws) : completeDecode s = .next (finishDecode (decodeFn ws) s) := by
  have hscan : engScanSyms s 0 (operandCount s) = scanOutcome 0 ws := by
    rw [operandCount, ← hl]
    exact engScanSyms_of_cells fun k hk => by rw [Nat.zero_add, hw k hk]
  rw [completeDecode, if_neg (by rw [decodeTooLong_iff]; omega)]
  by_cases hm : ws.length % 4 = 0
  · rw [if_neg (by rw [decodeBadLength_iff]; omega), hscan, scanOutcome]
    cases hs : scanWords 0 ws with
    | ok cs => rw [decodeFn_of_scanWords_ok hm hs]; rfl
    | error e => rw [decodeFn_of_scanWords_error hm hs]; rfl
  · rw [if_pos (decodeBadLength_iff.mpr (hl ▸ hm)), decodeFn_of_badLength hm]
    rfl

/-- R64: the bytes that the Engine writes fill the cells from 0 on, and the cells after them keep their value. -/
theorem read_engWriteBytes (bs : List Byte) (i : Nat) :
    (engWriteBytes bs s).byteMem.read i = if i < bs.length then bs[i]? else s.byteMem.read i := by
  simp [Memory.read_writeFrom]

/-- The byte count of an operand fits in OUT_LEN. -/
theorem toNat_byteCount : (BitVec.ofNat 32 (s.opLen.toNat / 4)).toNat = s.opLen.toNat / 4 := by
  have hlt := s.opLen.isLt
  rw [BitVec.toNat_ofNat]
  omega

/-- R7: an index of SYM_MEM fits in ERR_POS. -/
theorem toNat_symIndex {j : Nat} (h : j < s.maxSyms) : (BitVec.ofNat 32 j).toNat = j := by
  have hmax := maxBytes_le s
  rw [maxSyms_eq] at h
  rw [BitVec.toNat_ofNat]
  omega

theorem statusWord_ok_decode : statusWord (statusOk .decode) = 0x00000202 := by decide

end Completion

/-- The index that DECODE_FN reports is that of a word it was given. -/
theorem decodeFn_errSymbol_lt {ws : List Word} {j : Nat} {w : Word} (h : decodeFn ws = .errSymbol j w) :
    j < ws.length := by
  by_cases hl : ws.length % 4 = 0
  · cases hs : scanWords 0 ws with
    | ok cs => rw [decodeFn_of_scanWords_ok hl hs] at h; cases h
    | error e =>
      rw [decodeFn_of_scanWords_error hl hs] at h
      cases h
      simpa using scanWords_error_lt hs
  · rw [decodeFn_of_badLength hl] at h; cases h

/-- Settles O23: the completion is `finishDecode` of DECODE_FN's answer, in each of its three cases. -/
theorem decodeRefinesDecodeFn : Obligations.DecodeRefinesDecodeFn := by
  intro s ws ho hl hc hw
  refine ⟨_, (engineMove_decode ho).trans (completeDecode_of_holdsSyms hl hc hw), ?_⟩
  cases h : decodeFn ws with
  | ok bs =>
    have hlen : ws.length = 4 * bs.length := by rw [decodeFn_eq_ok_iff.mp h, encodeFn_length]
    refine ⟨fun i hi => ?_, fun i hi => ?_, ?_, statusWord_ok_decode, rfl⟩
    · rw [finishDecode, finishOk_byteMem, read_engWriteBytes, if_pos hi]
    · rw [finishDecode, finishOk_byteMem, read_engWriteBytes, if_neg (by omega)]
    · rw [finishDecode, finishOk_outLen, toNat_byteCount]; omega
  | errLength => rfl
  | errSymbol j w => exact ⟨toNat_symIndex (Nat.lt_of_lt_of_le (decodeFn_errSymbol_lt h) hc), rfl⟩

/-- Settles O28: an end with an error is `finishError`, which writes no cell, and the other writes one byte for each four
crumbs. -/
theorem decodeIsAllOrNothing : Obligations.DecodeIsAllOrNothing := by
  intro s t ho h
  obtain ⟨-, rfl⟩ | ⟨-, -, rfl⟩ | ⟨-, -, ⟨j, w, -, rfl⟩ | ⟨cs, hs, rfl⟩⟩ :=
    completeDecode_next (engineMove_decode ho ▸ h)
  · exact ⟨fun _ => ⟨rfl, rfl⟩, by simp⟩
  · exact ⟨fun _ => ⟨rfl, rfl⟩, by simp⟩
  · exact ⟨fun _ => ⟨rfl, rfl⟩, by simp⟩
  · obtain ⟨hcs, -⟩ := engScanSyms_crumbs hs
    have hlen : (assembleBytes cs).length = s.opLen.toNat / 4 := by rw [assembleBytes_length, hcs]
    refine ⟨by simp, fun _ => ⟨fun i hi => ?_, fun i hi => ?_⟩⟩
    · rw [← hlen] at hi
      rw [finishOk_byteMem, read_engWriteBytes, if_pos hi, List.getElem?_eq_getElem hi]
      exact Option.some_ne_none _
    · rw [finishOk_byteMem, read_engWriteBytes, if_neg (by omega)]

/-! ## The round trips on the block -/

/-- R87, R135: ENCODE on an idle block, issue and completion, of written bytes within MAX_BYTES. -/
theorem encode_run {s : State} {p : List Byte} (hb : s.status.busy = false) (hl : s.len.toNat = p.length)
    (hc : p.length ≤ s.maxBytes) (hp : s.holdsBytes p) :
    ∃ s' t, exec .encode s = .next s' ∧ engineMove s' = .next t ∧ t.status.err = false ∧
      t.outLen.toNat = 4 * p.length ∧ t.holdsSyms (encodeFn p) := by
  obtain ⟨t, ht, hsyms, -, hout, -, heq⟩ := encodeCompletes (issue .encode s) p rfl hl.symm hc hp
  exact ⟨_, t, exec_of_idle .encode hb, ht, congrArg (·.status.err) heq, hout,
    fun j hj => hsyms j (encodeFn_length p ▸ hj)⟩

/-- R109, R135: DECODE on an idle block, issue and completion, of the written symbols of bytes within MAX_BYTES. -/
theorem decode_run {s : State} {p : List Byte} (hb : s.status.busy = false) (hl : s.len.toNat = 4 * p.length)
    (hc : p.length ≤ s.maxBytes) (hw : s.holdsSyms (encodeFn p)) :
    ∃ s' t, exec .decode s = .next s' ∧ engineMove s' = .next t ∧ t.status.err = false ∧
      t.outLen.toNat = p.length ∧ t.holdsBytes p := by
  have hlen : (encodeFn p).length = 4 * p.length := encodeFn_length p
  have hcap : (encodeFn p).length ≤ s.maxSyms := by rw [maxSyms_eq]; omega
  obtain ⟨t, ht, hend⟩ := decodeRefinesDecodeFn (issue .decode s) (encodeFn p) rfl (hlen.trans hl.symm) hcap hw
  rw [decodeFnOfEncodeFn p] at hend
  obtain ⟨hbytes, -, hout, -, heq⟩ := hend
  exact ⟨_, t, exec_of_idle .decode hb, ht, congrArg (·.status.err) heq, by omega, hbytes⟩

/-- A buffer whose first cells read as the words that another state holds holds them too. -/
theorem State.holdsSyms.congr {s u : State} {ws : List Word} (hs : s.holdsSyms ws)
    (h : ∀ j, j < ws.length → u.symMem.read j = s.symMem.read j) : u.holdsSyms ws :=
  fun j hj => (h j hj).trans (hs j hj)

theorem State.holdsBytes.congr {s u : State} {bs : List Byte} (hs : s.holdsBytes bs)
    (h : ∀ i, i < bs.length → u.byteMem.read i = s.byteMem.read i) : u.holdsBytes bs :=
  fun i hi => (h i hi).trans (hs i hi)

theorem maxBytes_congr {s u : State} (h : u.params = s.params) : u.maxBytes = s.maxBytes := congrArg Params.maxBytes h

/-- Settles O34: the run of ENCODE leaves the symbols that the run of DECODE asks for. -/
theorem encodeThenDecode : Obligations.EncodeThenDecode := by
  intro s p hb hl hc hp
  obtain ⟨s', t, hs', ht, herr, -, hsyms⟩ := encode_run hb hl hc hp
  refine ⟨s', t, hs', ht, herr, fun u hpar hbu hlu hcells => ?_⟩
  exact decode_run hbu hlu (maxBytes_congr hpar ▸ hc) (hsyms.congr fun j hj => hcells j (encodeFn_length p ▸ hj))

/-- Settles O35: the words are the encoding of some bytes, which the run of DECODE leaves for the run of ENCODE. -/
theorem decodeThenEncode : Obligations.DecodeThenEncode := by
  intro s ws hb hl hc hm hvalid hw
  obtain ⟨bs, hbs⟩ := decodeFn_of_valid hm hvalid
  obtain rfl := decodeFn_eq_ok_iff.mp hbs
  rw [encodeFn_length] at hl hc ⊢
  have hcap : bs.length ≤ s.maxBytes := by rw [maxSyms_eq] at hc; omega
  obtain ⟨s', t, hs', ht, herr, -, hbytes⟩ := decode_run hb hl hcap hw
  refine ⟨s', t, hs', ht, herr, fun u hpar hbu hlu hcells => ?_⟩
  exact encode_run hbu (by omega) (maxBytes_congr hpar ▸ hcap) (hbytes.congr fun i hi => hcells i (by omega))

end Sys2Proof.Machine
end

section
/-! Proofs of the statements of spec/42_control.md: the dispatch of a CMD write, NOP, the issue of ENCODE and DECODE, CLEAR,
a command written while BUSY, and the frame of the commands. -/

namespace Sys2Proof.Machine

/-! ## The CMD write -/

/-- R134: while BUSY the CMD write of any word answers OK and changes nothing. -/
theorem busWrite_cmd_of_busy (w : Word) {s : State} (hb : s.status.busy = true) : busWrite 0x000000 4 w s = .ok s := by
  rw [busWrite_cmd, exec_of_busy _ hb, replyOf]

/-- R130: on an idle block the CMD write of any word performs the command that the word decodes to. -/
theorem busWrite_cmd_of_idle (w : Word) {s : State} (hb : s.status.busy = false) :
    busWrite 0x000000 4 w s = .ok (commandEffect (decode w) s) := by
  rw [busWrite_cmd, exec_of_idle _ hb, replyOf]

/-- Settles O4: while BUSY the word is ignored; on an idle block the dispatch tests the words in the decoder's order. -/
theorem cmdWriteDispatch : Obligations.CmdWriteDispatch := by
  intro w s
  cases hb : s.status.busy with
  | true => rw [busWrite_cmd_of_busy w hb, if_pos rfl]
  | false =>
    rw [busWrite_cmd_of_idle w hb, if_neg Bool.false_ne_true, decode]
    split_ifs
    · rfl
    · rfl
    · rfl
    · rfl
    · rfl

/-- Settles O19, by the law of a busy block for a command and for its CMD write. -/
theorem busyIgnoresCommands : Obligations.BusyIgnoresCommands := fun _ hb =>
  ⟨fun i => exec_of_busy i hb, fun w => busWrite_cmd_of_busy w hb⟩

/-! ## NOP -/

/-- R131: NOP answers the same state, BUSY or not. -/
theorem exec_nop (s : State) : exec .nop s = .next s := by
  rw [exec_eq, commandEffect, ite_self]

/-- R72, R131: with RSV not 0, OPC = 0 makes a reserved word. -/
theorem decode_rsv_append_zero {rsv : BitVec 28} (h : rsv ≠ 0) : decode (rsv ++ 0#4) = .reserved rsv 0 :=
  decodeOfEncode (.reserved rsv 0) (by rw [Instr.wellFormed, reservedFields, decide_eq_true h, Bool.true_or])

/-- Settles O15: the word 0 decodes to NOP, and NOP's CMD write answers as NOP does. -/
theorem nopDoesNothing : Obligations.NopDoesNothing :=
  ⟨fun s => ⟨exec_nop s, congrArg replyOf (exec_nop s)⟩, fun _ => decode_rsv_append_zero⟩

/-! ## Issue -/

theorem statusWord_issued_encode : statusWord (statusIssued .encode) = 0x00000101 := by decide

theorem statusWord_issued_decode : statusWord (statusIssued .decode) = 0x00000201 := by decide

/-- Settles O16: on an idle block either command acts as `issue`. -/
theorem encodeAndDecodeIssue : Obligations.EncodeAndDecodeIssue := fun _ hb =>
  ⟨exec_of_idle .encode hb, exec_of_idle .decode hb, statusWord_issued_encode, statusWord_issued_decode⟩

/-! ## CLEAR -/

/-- R132: CLEAR after CLEAR is the same as one CLEAR. -/
theorem clearResult_clearResult (s : State) : clearResult (clearResult s) = clearResult s := rfl

/-- R132: CLEAR on an idle block. -/
theorem exec_clear_of_idle {s : State} (hb : s.status.busy = false) : exec .clear s = .next (clearResult s) :=
  exec_of_idle .clear hb

/-- Settles O17: CLEAR leaves an idle block, on which a second CLEAR acts again and changes nothing. -/
theorem clearZeroesTheResult : Obligations.ClearZeroesTheResult := by
  refine ⟨rfl, fun s => ⟨fun hb => ?_, exec_of_busy .clear⟩⟩
  have hagain : exec .clear (clearResult s) = .next (clearResult s) := by
    rw [exec_clear_of_idle (by simp), clearResult_clearResult]
  exact ⟨clearResult s, exec_clear_of_idle hb, statusWord_idle, rfl, hagain⟩

/-! ## The frame of the commands -/

/-- R73, R134: a command leaves the block as it is or has its effect. -/
theorem exec_next {i : Instr} {s t : State} (h : exec i s = .next t) : t = s ∨ t = commandEffect i s := by
  rw [exec_eq] at h
  split at h
  · cases h; exact .inl rfl
  · cases h; exact .inr rfl

/-- R131 to R133, R135: a command writes no more than STATUS, the result registers, `op` and `op_len`. -/
theorem commandEffect_frame (i : Instr) (s : State) :
    commandEffect i s =
      { s with status := (commandEffect i s).status, outLen := (commandEffect i s).outLen,
               errPos := (commandEffect i s).errPos, errSym := (commandEffect i s).errSym,
               op := (commandEffect i s).op, opLen := (commandEffect i s).opLen } := by
  cases i <;> rfl

/-- R131 to R133: a command other than ENCODE and DECODE leaves the Engine alone. -/
theorem commandEffect_engine {i : Instr} (he : i ≠ .encode) (hd : i ≠ .decode) (s : State) :
    (commandEffect i s).op = s.op ∧ (commandEffect i s).opLen = s.opLen := by
  cases i with
  | encode => exact absurd rfl he
  | decode => exact absurd rfl hd
  | nop | clear | reserved => exact ⟨rfl, rfl⟩

/-- Settles O20, by the frame of the command's effect. -/
theorem commandFrame : Obligations.CommandFrame := by
  intro i s t h
  obtain rfl | rfl := exec_next h
  · exact ⟨rfl, fun _ => rfl, fun _ => rfl, fun _ _ => ⟨rfl, rfl⟩⟩
  · exact ⟨commandEffect_frame i s, fun a => by rw [commandEffect_byteMem], fun a => by rw [commandEffect_symMem],
      fun he hd => commandEffect_engine he hd s⟩

end Sys2Proof.Machine
end

section
/-! Proofs of the statements of spec/60_exceptions.md: each cause with the condition that records it, the independence of
DECODE's outcome from all but its input, the one error entry, how long an error record stays, and the faults of a step. -/

namespace Sys2Proof.Machine

/-! ## The ends of DECODE, each from its condition -/

section Completion
variable {s : State}

/-- R144: an operand above MAX_SYMS ends DECODE with CAPACITY, whatever SYM_MEM holds. -/
theorem completeDecode_of_tooLong (hc : s.maxSyms < s.opLen.toNat) :
    completeDecode s = .next (finishError .capacity 0 0 s) := by
  rw [completeDecode, if_pos (decodeTooLong_iff.mpr hc)]

/-- R142, R146: within MAX_SYMS an operand that is no multiple of 4 ends DECODE with LENGTH, whatever SYM_MEM holds. -/
theorem completeDecode_of_badLength (hc : s.opLen.toNat ≤ s.maxSyms) (hl : s.opLen.toNat % 4 ≠ 0) :
    completeDecode s = .next (finishError .length 0 0 s) := by
  rw [completeDecode, if_neg (by rw [decodeTooLong_iff]; omega), if_pos (decodeBadLength_iff.mpr hl)]

/-- R143: past the checks, a scan that stops at an invalid word ends DECODE with SYMBOL. -/
theorem completeDecode_of_invalid {j : Nat} {w : Word} (hc : s.opLen.toNat ≤ s.maxSyms) (hl : s.opLen.toNat % 4 = 0)
    (hs : engScanSyms s 0 s.opLen.toNat = .invalid j w) :
    completeDecode s = .next (finishError .symbol (BitVec.ofNat 32 j) w s) := by
  rw [completeDecode, if_neg (by rw [decodeTooLong_iff]; omega), if_neg (by rw [decodeBadLength_iff]; omega),
    operandCount, hs]

/-- R109: past the checks, a scan that accepts every word ends DECODE without error. -/
theorem completeDecode_of_crumbs {cs : List Crumb} (hc : s.opLen.toNat ≤ s.maxSyms) (hl : s.opLen.toNat % 4 = 0)
    (hs : engScanSyms s 0 s.opLen.toNat = .crumbs cs) :
    completeDecode s =
      .next (finishOk .decode (BitVec.ofNat 32 (s.opLen.toNat / 4)) (engWriteBytes (assembleBytes cs) s)) := by
  rw [completeDecode, if_neg (by rw [decodeTooLong_iff]; omega), if_neg (by rw [decodeBadLength_iff]; omega),
    operandCount, hs]

/-- R104: the Engine's scan stops at an invalid word that it reaches through valid words, and reads no cell after it. -/
theorem engScanSyms_of_first_invalid {i j n : Nat} {w : Word} (hji : j ≤ i) (hi : i < j + n)
    (hw : s.symMem.read i = some w) (hd : decLut w = none)
    (hv : ∀ k, j ≤ k → k < i → ∃ v c, s.symMem.read k = some v ∧ decLut v = some c) :
    engScanSyms s j n = .invalid i w := by
  induction n generalizing j with
  | zero => omega
  | succ n ih =>
    obtain rfl | hlt := Nat.eq_or_lt_of_le hji
    · simp only [engScanSyms, engReadSym, hw, hd]
    · obtain ⟨v, c, hr, hdv⟩ := hv j (Nat.le_refl j) hlt
      have hrest : engScanSyms s (j + 1) n = .invalid i w :=
        ih hlt (by omega) fun k hk => hv k (Nat.le_of_succ_le hk)
      simp only [engScanSyms, engReadSym, hr, hdv, hrest]

end Completion

/-- R64, R104: the Engine's scan depends on the cells in its range alone. -/
theorem engScanSyms_congr {s u : State} {j n : Nat}
    (h : ∀ k, j ≤ k → k < j + n → u.symMem.read k = s.symMem.read k) : engScanSyms u j n = engScanSyms s j n := by
  induction n generalizing j with
  | zero => rfl
  | succ n ih =>
    have hfirst : u.symMem.read j = s.symMem.read j := h j (by omega) (by omega)
    have hrest : engScanSyms u (j + 1) n = engScanSyms s (j + 1) n := ih fun k hj hk => h k (by omega) (by omega)
    simp only [engScanSyms, engReadSym, hfirst, hrest]

/-! ## The causes -/

/-- Settles O25: the capacity check comes first in either completion. -/
theorem capacityError : Obligations.CapacityError := by
  rintro s (⟨ho, hc⟩ | ⟨ho, hc⟩)
  · exact (engineMove_encode ho).trans (completeEncode_of_tooLong hc)
  · exact (engineMove_decode ho).trans (completeDecode_of_tooLong hc)

/-- Settles O26: the length check comes before the scan. -/
theorem lengthError : Obligations.LengthError := fun _ ho hc hl =>
  (engineMove_decode ho).trans (completeDecode_of_badLength hc hl)

/-- Settles O27: the scan stops at the first invalid word, whose index fits in ERR_POS. -/
theorem symbolError : Obligations.SymbolError := by
  intro s j w ho hc hl hj hw hd hv
  have hscan : engScanSyms s 0 s.opLen.toNat = .invalid j w :=
    engScanSyms_of_first_invalid (Nat.zero_le j) (by omega) hw hd fun k _ => hv k
  exact ⟨_, (engineMove_decode ho).trans (completeDecode_of_invalid hc hl hscan),
    toNat_symIndex (Nat.lt_of_lt_of_le hj hc), rfl⟩

/-- Settles O29: of ENCODE's two ends, only the one above MAX_BYTES sets ERR. -/
theorem encodeRecordsOnlyCapacity : Obligations.EncodeRecordsOnlyCapacity := by
  intro s t ho h herr
  obtain ⟨hc, rfl⟩ | ⟨p, -, -, -, rfl⟩ := completeEncode_next (engineMove_encode ho ▸ h)
  · exact ⟨rfl, hc⟩
  · simp at herr

/-- Settles O30, by evaluation of the error entry. -/
theorem finishErrorSaves : Obligations.FinishErrorSaves := fun _ _ _ _ => rfl

/-- Settles O33: each end of DECODE in the one state is its end in the other, with the same scan and the same bytes
written. -/
theorem decodeDependsOnlyOnInput : Obligations.DecodeDependsOnlyOnInput := by
  intro s u t hs hu hparams hlen hlast hcells h
  have hmax : u.maxSyms = s.maxSyms := congrArg Params.maxSyms hparams
  have hscan : engScanSyms u 0 u.opLen.toNat = engScanSyms s 0 u.opLen.toNat :=
    engScanSyms_congr fun j _ hj => hcells j (by rw [← hlen]; omega)
  have hends := completeDecode_next (engineMove_decode hs ▸ h)
  rw [← hmax, ← hlen, ← hscan] at hends
  rw [engineMove_decode hu]
  obtain ⟨hc, rfl⟩ | ⟨hc, hl, rfl⟩ | ⟨hc, hl, ⟨j, w, hend, rfl⟩ | ⟨cs, hend, rfl⟩⟩ := hends
  · exact ⟨_, completeDecode_of_tooLong hc, by simp [hlast], rfl, fun _ => ⟨rfl, rfl⟩, by simp⟩
  · exact ⟨_, completeDecode_of_badLength hc hl, by simp [hlast], rfl, fun _ => ⟨rfl, rfl⟩, by simp⟩
  · exact ⟨_, completeDecode_of_invalid hc hl hend, by simp [hlast], rfl, fun _ => ⟨rfl, rfl⟩, by simp⟩
  · refine ⟨_, completeDecode_of_crumbs hc hl hend, rfl, rfl, by simp, fun i hi => ?_⟩
    obtain ⟨hcs, -⟩ := engScanSyms_crumbs hend
    have hi : i < (assembleBytes cs).length := by
      rwa [finishOk_outLen, toNat_byteCount, ← hcs, ← assembleBytes_length] at hi
    rw [finishOk_byteMem, finishOk_byteMem, read_engWriteBytes, read_engWriteBytes, if_pos hi, if_pos hi]

/-! ## How long an error record stays -/

/-- R28 (a), R37: while an error is recorded nothing is in flight. -/
theorem State.Inv.op_none_of_err {s : State} (hs : s.Inv) (he : s.status.err = true) : s.op = .none := by
  refine hs.engine.op_none (Bool.eq_false_iff.mpr fun hb => ?_)
  obtain ⟨-, herr, -⟩ := hs.status.busyClear hb
  simp [he] at herr

/-- R149: with nothing in flight, no effect of a step touches the error record but reset and a CMD write by the Host. -/
theorem StepEffect.errorRecord_eq {s b : State} (e : StepEffect s b) (ho : s.op = .none)
    (hr : s.turns.head? ≠ some .reset)
    (hcmd : s.hostMoves → ∀ w rest, s.program = .write 0x000000 4 w :: rest → w = 0x00000000) :
    b.status = s.status ∧ b.errPos = s.errPos ∧ b.errSym = s.errSym := by
  cases e with
  | host hm e =>
    cases e with
    | command hp =>
      obtain rfl := hcmd hm _ _ hp
      exact ⟨rfl, rfl, rfl⟩
    | stay | writeLen | writeByte | writeSym => exact ⟨rfl, rfl, rfl⟩
  | engine _ e =>
    cases e with
    | stay => exact ⟨rfl, rfl, rfl⟩
    | encodeCapacity hop | encodeOk hop | decodeCapacity hop | decodeLength hop | decodeSymbol hop | decodeOk hop =>
      simp [ho] at hop
  | reset ht => exact absurd ht hr

/-- Settles O55: a recorded error leaves nothing in flight, and then the step's effect keeps the record. -/
theorem errorRecordStays : Obligations.ErrorRecordStays := by
  intro s t hs herr h hr hcmd
  obtain ⟨b, h', e, rfl⟩ := step_effect h
  exact e.errorRecord_eq (hs.op_none_of_err herr) hr hcmd

/-! ## The faults of the Host's line -/

/-- R36, R51: the offset is that of a buffer cell that is `unwritten`. -/
def State.unwrittenAt (s : State) (off : Offset) : Prop :=
  (∃ i, locate s.params off = some (.byteCell i) ∧ s.byteMem.read i = none) ∨
    ∃ j, locate s.params off = some (.symCell j) ∧ s.symMem.read j = none

/-- R51: the offset is that of a buffer cell. -/
def cellAt (p : Params) (off : Offset) : Prop :=
  (∃ i, locate p off = some (.byteCell i)) ∨ ∃ j, locate p off = some (.symCell j)

/-- R155: the faults of the Host's next line, each with the access that meets it. -/
inductive HostFault (s : State) : Fault → Prop where
  | uninitRead {off : Offset} {expect : Option Word} {rest : List HostOp} (ho : s.op = .none)
      (hp : s.program = .read off 4 expect :: rest) (hc : s.unwrittenAt off) : HostFault s .hostUninitRead
  | busyWrite {off : Offset} {v : Word} {rest : List HostOp} (ho : s.op ≠ .none)
      (hp : s.program = .write off 4 v :: rest) (hc : cellAt s.params off) : HostFault s .hostBusyWrite
  | busErr {off : Offset} {size : Nat} {rest : List HostOp} (hc : busCheck s.params off size = none)
      (hp : (∃ v, s.program = .write off size v :: rest) ∨ ∃ e, s.program = .read off size e :: rest) :
      HostFault s .hostBusErr

/-- R55: an access that passes the check of the bus is of 4 bytes, at a mapped offset. -/
theorem busCheck_some {p : Params} {off : Offset} {size : Nat} {l : Location} (h : busCheck p off size = some l) :
    size = 4 ∧ locate p off = some l := by
  unfold busCheck at h
  split at h
  · rename_i hs; exact ⟨hs, h⟩
  · cases h

section Replies
variable (s : State)

/-- R65: a cell answers a read or gives the one fault of an `unwritten` cell. -/
theorem readCell_cases (cell : Option Word) :
    (∃ a, readCell cell s = .ok a) ∨ s.op = .none ∧ cell = none ∧ readCell cell s = .fault .hostUninitRead := by
  by_cases ho : s.op = .none
  · cases cell with
    | none => exact .inr ⟨ho, rfl, readCell_unwritten ho⟩
    | some w => exact .inl ⟨_, readCell_written w ho⟩
  · exact .inl ⟨_, readCell_of_inFlight cell ho⟩

/-- R163: a cell takes a write or gives the one fault of a write while a command is in flight. -/
theorem writeCell_cases (t : State) :
    (∃ u, writeCell t s = .ok u) ∨ s.op ≠ .none ∧ writeCell t s = .fault .hostBusyWrite := by
  by_cases ho : s.op = .none
  · exact .inl ⟨_, writeCell_of_idle t ho⟩
  · exact .inr ⟨ho, writeCell_of_inFlight t ho⟩

/-- Everything that a MemRead can answer. -/
theorem busRead_cases (off : Offset) (size : Nat) :
    (∃ a, busRead off size s = .ok a) ∨
    busCheck s.params off size = none ∧ busRead off size s = .busErr ∨
    size = 4 ∧ s.op = .none ∧ s.unwrittenAt off ∧ busRead off size s = .fault .hostUninitRead := by
  cases h : busCheck s.params off size with
  | none => exact .inr (.inl ⟨rfl, busRead_of_none h⟩)
  | some l =>
    obtain ⟨hs, hl⟩ := busCheck_some h
    cases l with
    | reg r => exact .inl ⟨_, busRead_of_reg h⟩
    | byteCell i =>
      rw [busRead_of_byteCell h]
      obtain hok | ⟨ho, hcell, hf⟩ := readCell_cases s ((s.byteMem.read i).map (BitVec.setWidth 32))
      · exact .inl hok
      · exact .inr (.inr ⟨hs, ho, .inl ⟨i, hl, Option.map_eq_none_iff.mp hcell⟩, hf⟩)
    | symCell j =>
      rw [busRead_of_symCell h]
      obtain hok | ⟨ho, hcell, hf⟩ := readCell_cases s (s.symMem.read j)
      · exact .inl hok
      · exact .inr (.inr ⟨hs, ho, .inr ⟨j, hl, hcell⟩, hf⟩)

/-- Everything that a MemWrite can answer. -/
theorem busWrite_cases (off : Offset) (size : Nat) (v : Word) :
    (∃ t, busWrite off size v s = .ok t) ∨
    busCheck s.params off size = none ∧ busWrite off size v s = .busErr ∨
    size = 4 ∧ s.op ≠ .none ∧ cellAt s.params off ∧ busWrite off size v s = .fault .hostBusyWrite := by
  cases h : busCheck s.params off size with
  | none => exact .inr (.inl ⟨rfl, busWrite_of_none h⟩)
  | some l =>
    obtain ⟨hs, hl⟩ := busCheck_some h
    cases l with
    | reg r => rw [busWrite_of_reg h]; exact .inl (writeReg_ok r v s)
    | byteCell i =>
      rw [busWrite_of_byteCell h]
      obtain hok | ⟨ho, hf⟩ := writeCell_cases s { s with byteMem := s.byteMem.write i (v.setWidth 8) }
      · exact .inl hok
      · exact .inr (.inr ⟨hs, ho, .inl ⟨i, hl⟩, hf⟩)
    | symCell j =>
      rw [busWrite_of_symCell h]
      obtain hok | ⟨ho, hf⟩ := writeCell_cases s { s with symMem := s.symMem.write j v }
      · exact .inl hok
      · exact .inr (.inr ⟨hs, ho, .inr ⟨j, hl⟩, hf⟩)

/-- R155: the Host's line is performed, or it meets one of the faults that R155 names. -/
theorem hostMove_cases : (∃ t, hostMove s = .next t) ∨ ∃ f, HostFault s f ∧ hostMove s = .fault f := by
  cases hp : s.program with
  | nil => exact .inl ⟨s, hostMove_of_programEnd hp⟩
  | cons line rest =>
    cases line with
    | write off size v =>
      rw [hostMove_write hp]
      obtain ⟨t, ht⟩ | ⟨hc, hb⟩ | ⟨rfl, ho, hc, hf⟩ := busWrite_cases { s with program := rest } off size v
      · exact .inl ⟨t, by rw [ht, answerOf]⟩
      · exact .inr ⟨_, .busErr hc (.inl ⟨v, hp⟩), by rw [hb, answerOf]⟩
      · exact .inr ⟨_, .busyWrite ho hp hc, by rw [hf, answerOf]⟩
    | read off size expect =>
      rw [hostMove_read hp]
      obtain ⟨a, ha⟩ | ⟨hc, hb⟩ | ⟨rfl, ho, hc, hf⟩ := busRead_cases { s with program := rest } off size
      · exact .inl ⟨_, by rw [ha, answerOf]⟩
      · exact .inr ⟨_, .busErr hc (.inr ⟨expect, hp⟩), by rw [hb, answerOf]⟩
      · exact .inr ⟨_, .uninitRead ho hp hc, by rw [hf, answerOf]⟩
    | poll => exact .inl ⟨_, hostMove_poll hp⟩

end Replies

/-- R155: the Host's move faults only as its line does. -/
theorem hostMove_fault {s : State} {f : Fault} (h : hostMove s = .fault f) : HostFault s f := by
  obtain ⟨t, ht⟩ | ⟨g, hg, hf⟩ := hostMove_cases s
  · rw [ht] at h; cases h
  · rw [hf] at h; cases h; exact hg

theorem hostMove_ne_refused (s : State) (r : Refusal) : hostMove s ≠ .refused r := by
  obtain ⟨t, ht⟩ | ⟨f, -, hf⟩ := hostMove_cases s
  · simp [ht]
  · simp [hf]

/-! ## The faults of a step -/

/-- R155: no step refuses, because neither agent's move does. -/
theorem step_ne_refused (s : State) (r : Refusal) : step s ≠ .refused r := by
  cases ht : s.turns with
  | nil =>
    by_cases ho : s.op = .none
    · rw [step_of_idle ht ho]; exact hostMove_ne_refused s r
    · rw [step_of_inFlight ht ho]; exact engineMove_ne_refused s r
  | cons turn ts =>
    rw [step_of_turn ht]
    cases turn with
    | host => exact hostMove_ne_refused _ r
    | engine => exact engineMove_ne_refused _ r
    | reset => simp [takeTurn]

/-- Settles O53: the step that faults is a move of the Host or of the Engine, and either faults as its own law says. -/
theorem faultsAreThoseNamed : Obligations.FaultsAreThoseNamed := by
  refine fun s => ⟨step_ne_refused s, fun f h => ?_⟩
  obtain ⟨ts, ⟨hm, hh⟩ | ⟨hm, he⟩⟩ := step_fault h
  · cases hostMove_fault hh with
    | uninitRead ho hp hc => exact ⟨hm, ho, _, _, _, hp, hc⟩
    | busyWrite ho hp hc => exact ⟨hm, ho, _, _, _, hp, hc⟩
    | busErr hc hp => exact ⟨hm, _, _, _, hc, hp⟩
  · obtain ⟨rfl, hu⟩ := engineMove_fault he
    exact ⟨hm, hu⟩

end Sys2Proof.Machine
end

section
/-! Proofs of the statements of spec/70_reset_and_hazards.md: reset, the write to LEN, and the completion that the turns to
come bound. -/

namespace Sys2Proof.Machine

/-! ## Reset and LEN -/

/-- Settles O45: the reset turn is spent on the reset event, whatever the state. -/
theorem resetFromAnyState : Obligations.ResetFromAnyState := fun _ _ ht => step_of_turn ht

/-- Settles O39: offset 4 is LEN in every build, and a register write does not look at BUSY. -/
theorem lenWriteIsImmediate : Obligations.LenWriteIsImmediate := fun _ s =>
  busWrite_of_reg (busCheck_regOffset s.params .len)

/-! ## The turns that a move leaves -/

section Turns
variable {s t : State}

@[simp] theorem commandEffect_turns (i : Instr) (s : State) : (commandEffect i s).turns = s.turns := by cases i <;> rfl

/-- A MemWrite spends no turn. -/
theorem busWrite_turns {off : Offset} {size : Nat} {v : Word} (h : busWrite off size v s = .ok t) :
    t.turns = s.turns := by
  obtain he | rfl | rfl | ⟨i, -, -, rfl⟩ | ⟨j, -, -, rfl⟩ := busWrite_ok h
  · obtain rfl | rfl := exec_next he
    · rfl
    · simp
  all_goals rfl

/-- The Host's move spends no turn besides the one that `step` takes for it. -/
theorem hostMove_turns (h : hostMove s = .next t) : t.turns = s.turns := by
  obtain rfl | ⟨off, size, v, rest, -, hw⟩ | ⟨prog, notes, fails, draws, rfl⟩ := hostMove_next h
  · rfl
  · have hturns := busWrite_turns hw
    exact hturns
  · rfl

end Turns

/-! ## The command in flight -/

section InFlight
variable {s b t : State}

/-- R37: a command that acts may put another command in flight, and never NONE. It matters where BUSY = 0 does not show the
command in flight, since BUSY would have it ignored (R134). -/
theorem commandEffect_inFlight (i : Instr) (ho : s.op ≠ .none) : (commandEffect i s).op ≠ .none := by
  cases i with
  | encode | decode => simp [commandEffect]
  | nop | clear | reserved => simpa [commandEffect] using ho

/-- Nothing that the Host does ends a command in flight. -/
theorem HostEffect.inFlight (e : HostEffect s b) (ho : s.op ≠ .none) : b.op ≠ .none := by
  cases e with
  | command _ _ => exact commandEffect_inFlight _ ho
  | stay | writeLen | writeByte | writeSym => exact ho

/-- R87, R109, R147: every end of a command takes it out of flight and sets DONE. -/
theorem EngineEffect.ends (e : EngineEffect s b) (ho : s.op ≠ .none) : b.op = .none ∧ b.status.done = true := by
  cases e with
  | stay h => exact absurd h ho
  | encodeCapacity | encodeOk | decodeCapacity | decodeLength | decodeSymbol | decodeOk => simp

theorem hostMove_inFlight (h : hostMove s = .next t) (ho : s.op ≠ .none) : t.op ≠ .none := by
  obtain ⟨b, h', e, rfl⟩ := hostMove_effect (ts := s.turns) h
  exact e.inFlight ho

theorem engineMove_ends (h : engineMove s = .next t) (ho : s.op ≠ .none) : t.op = .none ∧ t.status.done = true := by
  obtain ⟨b, e, rfl⟩ := engineMove_effect (h := s) h
  exact e.ends ho

/-- What a step from a state with a command in flight comes to: the command has ended, with DONE = 1 but for a reset, or the
Host has moved, which spends a turn and leaves a command in flight. -/
theorem step_inFlight (h : step s = .next t) (ho : s.op ≠ .none) :
    (t.op = .none ∧ (.reset ∉ s.turns → t.status.done = true)) ∨ (t.op ≠ .none ∧ s.turns = .host :: t.turns) := by
  cases ht : s.turns with
  | nil =>
    rw [step_of_inFlight ht ho] at h
    exact .inl ((engineMove_ends h ho).imp_right fun hd _ => hd)
  | cons turn ts =>
    rw [step_of_turn ht] at h
    cases turn with
    | host => exact .inr ⟨hostMove_inFlight h ho, by rw [hostMove_turns h]⟩
    | engine => exact .inl ((engineMove_ends h ho).imp_right fun hd _ => hd)
    | reset => cases h; exact .inl ⟨rfl, fun hr => absurd List.mem_cons_self hr⟩

end InFlight

/-! ## The completion is taken -/

/-- R169: the wait of `s` for its command is over after `k` steps. The command is no longer in flight, with DONE = 1 where no
turn to come is a reset, or a step has faulted. -/
def WaitEnds (k : Nat) (s : State) : Prop :=
  (∃ f, Sys2Proof.core.run k s = .fault f) ∨
  ∃ t, Sys2Proof.core.run k s = .next t ∧ t.op = .none ∧ (.reset ∉ s.turns → t.status.done = true)

/-- A Host's turn puts the end of the wait off by one step. -/
theorem WaitEnds.of_host_turn {s t : State} {k : Nat} (h : step s = .next t) (ht : s.turns = .host :: t.turns)
    (hw : WaitEnds k t) : WaitEnds (k + 1) s := by
  simpa [WaitEnds, core_run_next h, ht] using hw

/-- By recursion on the turns to come: each step ends the wait or spends a turn of the Host, and once none is left the
Engine's completion is due. -/
theorem waitEnds_within_turns (s : State) (ho : s.op ≠ .none) : ∃ k, k ≤ s.turns.length + 1 ∧ WaitEnds k s := by
  cases h : step s with
  | refused r => exact absurd h (step_ne_refused s r)
  | fault f => exact ⟨1, by omega, .inl ⟨f, core_run_fault h 0⟩⟩
  | next t =>
    obtain ⟨hop, hdone⟩ | ⟨hop, hhost⟩ := step_inFlight h ho
    · exact ⟨1, by omega, .inr ⟨t, core_run_next h 0, hop, hdone⟩⟩
    · obtain ⟨k, hk, hw⟩ := waitEnds_within_turns t hop
      exact ⟨k + 1, by simpa [hhost] using hk, hw.of_host_turn h hhost⟩
termination_by s.turns.length
decreasing_by simp [hhost]

/-- Settles O51: the wait ends within the turns to come and one step more, and both of its ends are what the statement
asks of the run. -/
theorem completionIsTaken : Obligations.CompletionIsTaken := by
  intro s ho
  obtain ⟨k, hk, ⟨f, hf⟩ | ⟨t, ht, hend⟩⟩ := waitEnds_within_turns s ho
  · exact ⟨k, hk, by rw [hf]; trivial⟩
  · exact ⟨k, hk, by rw [ht]; exact hend⟩

end Sys2Proof.Machine
end
